-- ==== Sys2Proof/Word.lean ====
section
/-! DEFINITION. The word types of the CHIP-8 core: bytes, 16-bit words, 12-bit addresses, register and key numbers
(00_scope.md R7, R9, R10; 10_state.md R20, R21). -/

namespace Sys2Proof

/-- A memory byte, a general register, a timer (10_state.md R21, R30, R32). -/
abbrev Byte := BitVec 8

/-- The index register, the program counter, a stack entry, an instruction word (10_state.md R24, R28; 30_encoding.md R70). -/
abbrev Word := BitVec 16

/-- The immediate address field nnn (30_encoding.md R71). -/
abbrev Addr12 := BitVec 12

/-- A register number: "a 4-bit instruction field, so an index is always in 0..15" (10_state.md R21). -/
abbrev Reg := Fin 16

/-- A logical key, 0x0-0xF (00_scope.md R7; 60_exceptions.md R213). -/
abbrev Key := Fin 16

/-- VF, the sixteenth register and the flag register (10_state.md R23). -/
abbrev VF : Reg := 15

end Sys2Proof
end

