-- ==== Sys2Proof/Syntax.lean ====
section
/-! DEFINITION. The 34 instructions, one constructor per row of the opcode map (30_encoding.md R77), in its order. The
fields are exactly as wide as the encoding's fields (R72), so every term is an instruction the encoding admits. -/

namespace Sys2Proof

/-- An instruction. `shr` and `shl` keep the y field, which selects nothing (30_encoding.md R74, R82), so that an
instruction determines its word. -/
inductive Instr where
  /-- 00E0 CLS (R170). -/
  | cls
  /-- 00EE RET (R101). -/
  | ret
  /-- 1nnn JP nnn (R102). -/
  | jp (nnn : Addr12)
  /-- 2nnn CALL nnn (R103). -/
  | call (nnn : Addr12)
  /-- 3xkk SE Vx, kk (R104). -/
  | seImm (x : Reg) (kk : Byte)
  /-- 4xkk SNE Vx, kk (R105). -/
  | sneImm (x : Reg) (kk : Byte)
  /-- 5xy0 SE Vx, Vy (R106). -/
  | seReg (x y : Reg)
  /-- 6xkk LD Vx, kk (R121). -/
  | ldImm (x : Reg) (kk : Byte)
  /-- 7xkk ADD Vx, kk (R122). -/
  | addImm (x : Reg) (kk : Byte)
  /-- 8xy0 LD Vx, Vy (R123). -/
  | ldReg (x y : Reg)
  /-- 8xy1 OR Vx, Vy (R124). -/
  | or (x y : Reg)
  /-- 8xy2 AND Vx, Vy (R125). -/
  | and (x y : Reg)
  /-- 8xy3 XOR Vx, Vy (R126). -/
  | xor (x y : Reg)
  /-- 8xy4 ADD Vx, Vy (R127). -/
  | add (x y : Reg)
  /-- 8xy5 SUB Vx, Vy (R128). -/
  | sub (x y : Reg)
  /-- 8xy6 SHR Vx (R129); y is not read. -/
  | shr (x y : Reg)
  /-- 8xy7 SUBN Vx, Vy (R130). -/
  | subn (x y : Reg)
  /-- 8xyE SHL Vx (R131); y is not read. -/
  | shl (x y : Reg)
  /-- 9xy0 SNE Vx, Vy (R107). -/
  | sneReg (x y : Reg)
  /-- Annn LD I, nnn (R150). -/
  | ldI (nnn : Addr12)
  /-- Bnnn JP V0, nnn (R108). -/
  | jpV0 (nnn : Addr12)
  /-- Cxkk RND Vx, kk (R132). -/
  | rnd (x : Reg) (kk : Byte)
  /-- Dxyn DRW Vx, Vy, n (R171); n is a row count 0..15. -/
  | drw (x y : Reg) (n : Fin 16)
  /-- Ex9E SKP Vx (R190). -/
  | skp (x : Reg)
  /-- ExA1 SKNP Vx (R191). -/
  | sknp (x : Reg)
  /-- Fx07 LD Vx, DT (R192). -/
  | ldRegDt (x : Reg)
  /-- Fx0A LD Vx, K (R193). -/
  | ldRegKey (x : Reg)
  /-- Fx15 LD DT, Vx (R194). -/
  | ldDtReg (x : Reg)
  /-- Fx18 LD ST, Vx (R195). -/
  | ldStReg (x : Reg)
  /-- Fx1E ADD I, Vx (R151). -/
  | addI (x : Reg)
  /-- Fx29 LD F, Vx (R152). -/
  | ldFont (x : Reg)
  /-- Fx33 LD B, Vx (R153). -/
  | ldBcd (x : Reg)
  /-- Fx55 LD [I], Vx (R154). -/
  | storeRegs (x : Reg)
  /-- Fx65 LD Vx, [I] (R155). -/
  | loadRegs (x : Reg)
deriving DecidableEq, Repr

end Sys2Proof
end

