-- ==== Sys2Proof/WellFormed.lean ====
section
/-! DEFINITION. What is well formed: the opcode map (30_encoding.md R77) as mask-and-match rows, the row each
instruction belongs to, the legal instruction words (R79), and the program images a load accepts
(70_reset_and_hazards.md R243). `Instr` needs no check of its own: its field types are the encoding's field widths. -/

namespace Sys2Proof

/-- One row of the opcode map: "`mask` selects the fixed bits and `match` gives their value" (R77). -/
structure OpRow where
  mnemonic : String
  pattern : Word
  mask : Word
deriving DecidableEq, Repr

/-- "A word matches a row when `(w & mask) == match`" (R77). -/
def OpRow.accepts (r : OpRow) (w : Word) : Bool := (w &&& r.mask) == r.pattern

/-- The row of the opcode map an instruction belongs to (R77). -/
def Instr.row : Instr → OpRow
  | .cls => ⟨"CLS", 0x00E0, 0xFFFF⟩
  | .ret => ⟨"RET", 0x00EE, 0xFFFF⟩
  | .jp _ => ⟨"JP_nnn", 0x1000, 0xF000⟩
  | .call _ => ⟨"CALL_nnn", 0x2000, 0xF000⟩
  | .seImm _ _ => ⟨"SE_Vx__kk", 0x3000, 0xF000⟩
  | .sneImm _ _ => ⟨"SNE_Vx__kk", 0x4000, 0xF000⟩
  | .seReg _ _ => ⟨"SE_Vx__Vy", 0x5000, 0xF00F⟩
  | .ldImm _ _ => ⟨"LD_Vx__kk", 0x6000, 0xF000⟩
  | .addImm _ _ => ⟨"ADD_Vx__kk", 0x7000, 0xF000⟩
  | .ldReg _ _ => ⟨"LD_Vx__Vy", 0x8000, 0xF00F⟩
  | .or _ _ => ⟨"OR_Vx__Vy", 0x8001, 0xF00F⟩
  | .and _ _ => ⟨"AND_Vx__Vy", 0x8002, 0xF00F⟩
  | .xor _ _ => ⟨"XOR_Vx__Vy", 0x8003, 0xF00F⟩
  | .add _ _ => ⟨"ADD_Vx__Vy", 0x8004, 0xF00F⟩
  | .sub _ _ => ⟨"SUB_Vx__Vy", 0x8005, 0xF00F⟩
  | .shr _ _ => ⟨"SHR_Vx", 0x8006, 0xF00F⟩
  | .subn _ _ => ⟨"SUBN_Vx__Vy", 0x8007, 0xF00F⟩
  | .shl _ _ => ⟨"SHL_Vx", 0x800E, 0xF00F⟩
  | .sneReg _ _ => ⟨"SNE_Vx__Vy", 0x9000, 0xF00F⟩
  | .ldI _ => ⟨"LD_I__nnn", 0xA000, 0xF000⟩
  | .jpV0 _ => ⟨"JP_V0__nnn", 0xB000, 0xF000⟩
  | .rnd _ _ => ⟨"RND_Vx__kk", 0xC000, 0xF000⟩
  | .drw _ _ _ => ⟨"DRW_Vx__Vy__n", 0xD000, 0xF000⟩
  | .skp _ => ⟨"SKP_Vx", 0xE09E, 0xF0FF⟩
  | .sknp _ => ⟨"SKNP_Vx", 0xE0A1, 0xF0FF⟩
  | .ldRegDt _ => ⟨"LD_Vx__DT", 0xF007, 0xF0FF⟩
  | .ldRegKey _ => ⟨"LD_Vx__K", 0xF00A, 0xF0FF⟩
  | .ldDtReg _ => ⟨"LD_DT__Vx", 0xF015, 0xF0FF⟩
  | .ldStReg _ => ⟨"LD_ST__Vx", 0xF018, 0xF0FF⟩
  | .addI _ => ⟨"ADD_I__Vx", 0xF01E, 0xF0FF⟩
  | .ldFont _ => ⟨"LD_F__Vx", 0xF029, 0xF0FF⟩
  | .ldBcd _ => ⟨"LD_B__Vx", 0xF033, 0xF0FF⟩
  | .storeRegs _ => ⟨"LD__I___Vx", 0xF055, 0xF0FF⟩
  | .loadRegs _ => ⟨"LD_Vx___I", 0xF065, 0xF0FF⟩

/-- One instruction of each row, rows 1 to 19 of the opcode map. -/
def rowSamplesLow : List Instr :=
  [.cls, .ret, .jp 0, .call 0, .seImm 0 0, .sneImm 0 0, .seReg 0 0, .ldImm 0 0, .addImm 0 0, .ldReg 0 0,
    .or 0 0, .and 0 0, .xor 0 0, .add 0 0, .sub 0 0, .shr 0 0, .subn 0 0, .shl 0 0, .sneReg 0 0]

/-- One instruction of each row, rows 20 to 34 of the opcode map. -/
def rowSamplesHigh : List Instr :=
  [.ldI 0, .jpV0 0, .rnd 0 0, .drw 0 0 0, .skp 0, .sknp 0, .ldRegDt 0, .ldRegKey 0, .ldDtReg 0, .ldStReg 0,
    .addI 0, .ldFont 0, .ldBcd 0, .storeRegs 0, .loadRegs 0]

/-- The opcode map, one row per instruction, in its order (R77). -/
def opcodeMap : List OpRow := (rowSamplesLow ++ rowSamplesHigh).map Instr.row

/-- A word is legal when it matches a row; "exactly the words that match no row of rule R77 are illegal" (R79). -/
def legalWord (w : Word) : Bool := opcodeMap.any (·.accepts w)

/-- An image a load accepts: it does not exceed 0xFFF when laid from 0x200 (70_reset_and_hazards.md R243). -/
def imageFits (image : List Byte) : Bool := decide (image.length ≤ 3584)

end Sys2Proof
end

