-- ==== Sys2Proof/Decode.lean ====
section
/-! DEFINITION. The decoder, total on any bytes and rejecting by name, and after it the encoder, both written from
30_encoding.md R70-R77 (fields R72, the case analysis of `Decode(w)` R76, the formats R72, the rows R77), with the
byte order of an instruction word (20_memory.md R55, R58). -/

namespace Sys2Proof

/-! ### Byte order and fields -/

/-- "the byte at the lower address holds bits 15:8" (20_memory.md R58). -/
def wordOfBytes (first second : Byte) : Word := first ++ second

/-- Bits 15:8, the byte stored first. -/
def firstByte (w : Word) : Byte := w.extractLsb' 8 8

/-- Bits 7:0, the byte stored second. -/
def secondByte (w : Word) : Byte := w.extractLsb' 0 8

/-- op = w[15:12] (R72). -/
def fieldOp (w : Word) : BitVec 4 := w.extractLsb' 12 4

/-- x = w[11:8] (R72). -/
def fieldX (w : Word) : Reg := (w.extractLsb' 8 4).toFin

/-- y = w[7:4] (R72). -/
def fieldY (w : Word) : Reg := (w.extractLsb' 4 4).toFin

/-- n = w[3:0] (R72). -/
def fieldN (w : Word) : BitVec 4 := w.extractLsb' 0 4

/-- kk = w[7:0] (R72). -/
def fieldKk (w : Word) : Byte := w.extractLsb' 0 8

/-- nnn = w[11:0] (R72). -/
def fieldNnn (w : Word) : Addr12 := w.extractLsb' 0 12

/-! ### The decoder -/

/-- The 8 row, selected by n (R76). -/
def decodeRow8 (w : Word) : Option Instr :=
  if fieldN w = 0x0 then some (.ldReg (fieldX w) (fieldY w))
  else if fieldN w = 0x1 then some (.or (fieldX w) (fieldY w))
  else if fieldN w = 0x2 then some (.and (fieldX w) (fieldY w))
  else if fieldN w = 0x3 then some (.xor (fieldX w) (fieldY w))
  else if fieldN w = 0x4 then some (.add (fieldX w) (fieldY w))
  else if fieldN w = 0x5 then some (.sub (fieldX w) (fieldY w))
  else if fieldN w = 0x6 then some (.shr (fieldX w) (fieldY w))
  else if fieldN w = 0x7 then some (.subn (fieldX w) (fieldY w))
  else if fieldN w = 0xE then some (.shl (fieldX w) (fieldY w))
  else none

/-- The E row, selected by kk (R76). -/
def decodeRowE (w : Word) : Option Instr :=
  if fieldKk w = 0x9E then some (.skp (fieldX w))
  else if fieldKk w = 0xA1 then some (.sknp (fieldX w))
  else none

/-- The F row, selected by kk (R76). -/
def decodeRowF (w : Word) : Option Instr :=
  if fieldKk w = 0x07 then some (.ldRegDt (fieldX w))
  else if fieldKk w = 0x0A then some (.ldRegKey (fieldX w))
  else if fieldKk w = 0x15 then some (.ldDtReg (fieldX w))
  else if fieldKk w = 0x18 then some (.ldStReg (fieldX w))
  else if fieldKk w = 0x1E then some (.addI (fieldX w))
  else if fieldKk w = 0x29 then some (.ldFont (fieldX w))
  else if fieldKk w = 0x33 then some (.ldBcd (fieldX w))
  else if fieldKk w = 0x55 then some (.storeRegs (fieldX w))
  else if fieldKk w = 0x65 then some (.loadRegs (fieldX w))
  else none

/-- `Decode(w)` (R76): the instruction of a 16-bit word, or none for `Illegal`. -/
def decodeWord (w : Word) : Option Instr :=
  if fieldOp w = 0x0 then
    if w = 0x00E0 then some .cls else if w = 0x00EE then some .ret else none
  else if fieldOp w = 0x1 then some (.jp (fieldNnn w))
  else if fieldOp w = 0x2 then some (.call (fieldNnn w))
  else if fieldOp w = 0x3 then some (.seImm (fieldX w) (fieldKk w))
  else if fieldOp w = 0x4 then some (.sneImm (fieldX w) (fieldKk w))
  else if fieldOp w = 0x5 then
    if fieldN w = 0x0 then some (.seReg (fieldX w) (fieldY w)) else none
  else if fieldOp w = 0x6 then some (.ldImm (fieldX w) (fieldKk w))
  else if fieldOp w = 0x7 then some (.addImm (fieldX w) (fieldKk w))
  else if fieldOp w = 0x8 then decodeRow8 w
  else if fieldOp w = 0x9 then
    if fieldN w = 0x0 then some (.sneReg (fieldX w) (fieldY w)) else none
  else if fieldOp w = 0xA then some (.ldI (fieldNnn w))
  else if fieldOp w = 0xB then some (.jpV0 (fieldNnn w))
  else if fieldOp w = 0xC then some (.rnd (fieldX w) (fieldKk w))
  else if fieldOp w = 0xD then some (.drw (fieldX w) (fieldY w) (fieldN w).toFin)
  else if fieldOp w = 0xE then decodeRowE w
  else decodeRowF w

/-- Why bytes do not decode. -/
inductive DecodeReject where
  /-- Fewer than the two bytes of an instruction (R70). -/
  | tooShort
  /-- `Illegal`: the word matches no row of the opcode map (R79). -/
  | illegalWord (w : Word)
deriving DecidableEq, Repr

/-- The decoder on a byte sequence: the instruction in its first two bytes, with the bytes after it. -/
def decode : List Byte → Except DecodeReject (Instr × List Byte)
  | first :: second :: rest =>
    match decodeWord (wordOfBytes first second) with
    | some i => .ok (i, rest)
    | none => .error (.illegalWord (wordOfBytes first second))
  | _ => .error .tooShort

/-! ### The encoder -/

/-- Format A: `oooo nnnn nnnn nnnn` (R72). -/
def formA (op : BitVec 4) (nnn : Addr12) : Word := op ++ nnn

/-- Format XK, and with a fixed function byte format XF: `oooo xxxx kkkk kkkk` (R72). -/
def formXK (op : BitVec 4) (x : Reg) (kk : Byte) : Word := op ++ BitVec.ofFin (w := 4) x ++ kk

/-- Format XYN: `oooo xxxx yyyy nnnn` (R72). -/
def formXYN (op : BitVec 4) (x y : Reg) (n : BitVec 4) : Word :=
  op ++ BitVec.ofFin (w := 4) x ++ BitVec.ofFin (w := 4) y ++ n

/-- The word of an instruction (R72, R77). -/
def encode : Instr → Word
  | .cls => 0x00E0
  | .ret => 0x00EE
  | .jp nnn => formA 0x1 nnn
  | .call nnn => formA 0x2 nnn
  | .seImm x kk => formXK 0x3 x kk
  | .sneImm x kk => formXK 0x4 x kk
  | .seReg x y => formXYN 0x5 x y 0x0
  | .ldImm x kk => formXK 0x6 x kk
  | .addImm x kk => formXK 0x7 x kk
  | .ldReg x y => formXYN 0x8 x y 0x0
  | .or x y => formXYN 0x8 x y 0x1
  | .and x y => formXYN 0x8 x y 0x2
  | .xor x y => formXYN 0x8 x y 0x3
  | .add x y => formXYN 0x8 x y 0x4
  | .sub x y => formXYN 0x8 x y 0x5
  | .shr x y => formXYN 0x8 x y 0x6
  | .subn x y => formXYN 0x8 x y 0x7
  | .shl x y => formXYN 0x8 x y 0xE
  | .sneReg x y => formXYN 0x9 x y 0x0
  | .ldI nnn => formA 0xA nnn
  | .jpV0 nnn => formA 0xB nnn
  | .rnd x kk => formXK 0xC x kk
  | .drw x y n => formXYN 0xD x y (BitVec.ofFin (w := 4) n)
  | .skp x => formXK 0xE x 0x9E
  | .sknp x => formXK 0xE x 0xA1
  | .ldRegDt x => formXK 0xF x 0x07
  | .ldRegKey x => formXK 0xF x 0x0A
  | .ldDtReg x => formXK 0xF x 0x15
  | .ldStReg x => formXK 0xF x 0x18
  | .addI x => formXK 0xF x 0x1E
  | .ldFont x => formXK 0xF x 0x29
  | .ldBcd x => formXK 0xF x 0x33
  | .storeRegs x => formXK 0xF x 0x55
  | .loadRegs x => formXK 0xF x 0x65

/-- The two bytes of an instruction as memory holds them (20_memory.md R58). -/
def encodeBytes (i : Instr) : List Byte := [firstByte (encode i), secondByte (encode i)]

/-! ### The opcode table's words -/

/-- The first `nbits` bits of `w` as one instruction word, the bits above them zero. -/
def tableWord (nbits w : Nat) : Word := BitVec.ofNat 16 (w % 2 ^ nbits)

/-- The instruction the decoder reads from a word numbered as the opcode table numbers it. -/
def decodeTableWord (nbits w : Nat) : Option Instr :=
  match decode [firstByte (tableWord nbits w), secondByte (tableWord nbits w)] with
  | .ok (i, _) => some i
  | .error _ => none

end Sys2Proof
end

