-- ==== Sys2Proof/Config.lean ====
section
/-! DEFINITION. What the source leaves open. First the types of the parameters of 00_scope.md R8 (their default
values stand in Machine/Params.lean, where a repair can mend them); then the free values: constants with no body,
so nothing can be proved about which value they take. -/

namespace Sys2Proof.Config

/-- `FLAG_WRITE_ORDER` (00_scope.md R8, 41_alu.md R120): which of the two writes of a flag-writing operation lands last. -/
inductive FlagWriteOrder where
  /-- VF is written first, so the result's write into V[x] lands last. -/
  | vfFirst
  /-- The flag's write into VF lands last. -/
  | vfLast
deriving DecidableEq, Repr

/-- `FONT_INDEX_MODE` (00_scope.md R8, 42_index_memory.md R152): the digit Fx29 takes from V[x]. -/
inductive FontIndexMode where
  /-- The low nibble of V[x]. -/
  | mask
  /-- V[x] as it is. -/
  | linear
deriving DecidableEq, Repr

/-- How many ticks the environment performs before its n-th step call: "a free schedule" (60_exceptions.md R217). -/
opaque freeTicks : Nat → Nat

/-- Whether logical key k is held at the n-th step call: "any value at each step" (60_exceptions.md R213). -/
opaque freeKeyDown : Nat → Key → Bool

/-- The key-press event given with the n-th step call, if any (60_exceptions.md R214). -/
opaque freeKeyPress : Nat → Option Key

/-- The random byte given with the n-th step call: "a free draw under no law" (60_exceptions.md R215). -/
opaque freeRandByte : Nat → Byte

end Sys2Proof.Config
end

