-- ==== Sys2Proof/Machine/Params.lean ====
section
/-! DEFINITION. The default values of the parameters of 00_scope.md R8, each the spec's own decision
(92_eei_decisions.md), and the font table. They stand here, not in Config.lean, so that a repair can mend them. -/

namespace Sys2Proof.Machine

/-- `FLAG_WRITE_ORDER` = VF_FIRST (R8, D6). DESIGN CHOICE, log 5. -/
def Param.flagWriteOrder : Config.FlagWriteOrder := .vfFirst

/-- `I_WRAP_MODULUS` = 0x10000 (R8, D12, C6). DESIGN CHOICE, log 6. -/
def Param.iWrapModulus : Nat := 0x10000

/-- `FONT_INDEX_MODE` = MASK (R8, D13). DESIGN CHOICE, log 8. -/
def Param.fontIndexMode : Config.FontIndexMode := .mask

/-- `PROTECT_RESERVED` = true (R8, D19, C8). DESIGN CHOICE, log 9. -/
def Param.protectReserved : Bool := true

/-- The glyphs 0-7 (10_state.md R33). PRESUMED (the spec's general knowledge, K1), log 7. -/
def Param.glyphsLow : List (List Byte) :=
  [[0xF0, 0x90, 0x90, 0x90, 0xF0],
   [0x20, 0x60, 0x20, 0x20, 0x70],
   [0xF0, 0x10, 0xF0, 0x80, 0xF0],
   [0xF0, 0x10, 0xF0, 0x10, 0xF0],
   [0x90, 0x90, 0xF0, 0x10, 0x10],
   [0xF0, 0x80, 0xF0, 0x10, 0xF0],
   [0xF0, 0x80, 0xF0, 0x90, 0xF0],
   [0xF0, 0x10, 0x20, 0x40, 0x40]]

/-- The glyphs 8-F (10_state.md R33). PRESUMED (the spec's general knowledge, K1), log 7. -/
def Param.glyphsHigh : List (List Byte) :=
  [[0xF0, 0x90, 0xF0, 0x90, 0xF0],
   [0xF0, 0x90, 0xF0, 0x10, 0xF0],
   [0xF0, 0x90, 0xF0, 0x90, 0x90],
   [0xE0, 0x90, 0xE0, 0x90, 0xE0],
   [0xF0, 0x80, 0x80, 0x80, 0xF0],
   [0xE0, 0x90, 0x90, 0x90, 0xE0],
   [0xF0, 0x80, 0xF0, 0x80, 0xF0],
   [0xF0, 0x80, 0xF0, 0x80, 0x80]]

/-- `FONT_BYTES` (R8): the 80 bytes of the font table, glyph d at 5 * d (10_state.md R33). -/
def Param.fontBytes : List Byte := (Param.glyphsLow ++ Param.glyphsHigh).flatten

/-- What memory byte `a` holds after initialisation: the font table at 0x000-0x04F, 0 above it (10_state.md R32, R41). -/
def resetByte (a : Nat) : Byte := if a < 80 then Param.fontBytes.getD a 0 else 0

end Sys2Proof.Machine
end

