-- ==== Sys2Proof/Machine/State.lean ====
section
/-! DEFINITION. The machine's state as plain data: "the block's state is exactly the following tuple, and nothing
else" (10_state.md R20), two fields of the model's own that carry the environment's inputs (log 1, log 2), and the
state after reset (10_state.md R41). -/

namespace Sys2Proof.Machine

/-- The run state (10_state.md R34). -/
inductive RunState where
  /-- "In Running a step fetches and executes one instruction." -/
  | running
  /-- "In AwaitingKey a step only checks for a key press." -/
  | awaitingKey
  /-- Entered on any fault; "in Halted a step does nothing and reports the fault again". -/
  | halted
deriving DecidableEq, Repr

/-- The four fault causes (60_exceptions.md R220). -/
inductive FaultCause where
  /-- (a) "instruction bit pattern matches no known encoding" (R223). -/
  | decode
  /-- (b) "CALL when stack pointer is at maximum depth" (R224). -/
  | stackOverflow
  /-- (c) "RET with no active call frame" (R225). -/
  | stackUnderflow
  /-- (d) a memory access outside 0x000-0xFFF, or a protected store (R226). -/
  | address
deriving DecidableEq, Repr

/-- What the fault latch records (10_state.md R36). -/
structure FaultRecord where
  cause : FaultCause
  /-- PC of the faulting step. -/
  pc : Word
  /-- The instruction word, or none when the fetch itself faulted. -/
  word : Option Word
  /-- The lowest bad address, or none for a fault that is not a memory fault. -/
  addr : Option Nat
deriving DecidableEq, Repr

/-- The inputs the environment supplies with one step call (10_state.md R39; 60_exceptions.md R211, R213-R215). -/
structure StepInput where
  /-- `KeyDown(0..15)`. -/
  keyDown : Vector Bool 16
  /-- `KeyPress`: a key value, or none. -/
  keyPress : Option Key
  /-- `RandByte`. -/
  randByte : Byte
deriving DecidableEq, Repr

/-- One turn of the environment: the ticks it performs before a step call, and that call's inputs
(60_exceptions.md R216, R217). -/
structure Turn where
  ticks : Nat
  input : StepInput
deriving DecidableEq, Repr

/-- Memory as (address, byte) pairs; an unlisted address holds its reset byte (10_state.md R32). -/
abbrev Memory := List Host.Cell

/-- The display, row-major, `DISP[row][col]` (10_state.md R31). -/
abbrev Display := Vector (Vector Bool 64) 32

/-- The machine's state (10_state.md R20). -/
structure State where
  /-- MEM[0x000..0xFFF] (R32). -/
  mem : Memory
  /-- V[0..15] (R21). -/
  v : Vector Byte 16
  /-- I (R25). -/
  i : Word
  /-- PC (R26). -/
  pc : Word
  /-- STACK[0..15] (R28). -/
  stack : Vector Word 16
  /-- SP, "an integer 0..15" (R28). -/
  sp : Fin 16
  /-- DT (R30). -/
  dt : Byte
  /-- ST (R30). -/
  st : Byte
  /-- DISP[0..31][0..63] (R31). -/
  disp : Display
  /-- RUN (R34). -/
  run : RunState
  /-- KW_TARGET (R35). -/
  kwTarget : Reg
  /-- FAULT (R36). -/
  fault : Option FaultRecord
  /-- The MODEL's own: the environment's coming turns that are already fixed, earliest first (log 1). -/
  env : List Turn
  /-- The MODEL's own: how many turns have been taken; the free turns are indexed by it (log 1). -/
  turns : Nat
deriving DecidableEq, Repr

/-- Why the machine could stop with no next state: it never does. Every fault of the spec is TAKEN, as the next state
that 60_exceptions.md R221 describes, and a step in Halted is the no-change of R222 (log 4). Safe: no behaviour of
the spec is cut off. -/
inductive Fault where
deriving DecidableEq, Repr

/-- Why an operation has no meaning. -/
inductive Refusal where
  /-- Raised by `exec` for an instruction with no meaning yet; no arm does so. Safe: nothing is claimed of it. -/
  | notModelled (mnemonic : String)
  /-- Raised by the environment's `load` for an image longer than 3584 bytes, never by a step: "reject", "the block is
  not started" (70_reset_and_hazards.md R243, D32, U20). Safe: it is the spec's own rejection. -/
  | imageTooLong
deriving DecidableEq, Repr

/-- The state after initialisation (10_state.md R41, 70_reset_and_hazards.md R240): memory with nothing listed is the
font table and zeros. `env` and `turns`, the model's own, start empty and at 0: DESIGN CHOICE, log 3. -/
def State.reset : State where
  mem := []
  v := Vector.replicate 16 0
  i := 0
  pc := 0x200
  stack := Vector.replicate 16 0
  sp := 0
  dt := 0
  st := 0
  disp := Vector.replicate 32 (Vector.replicate 64 false)
  run := .running
  kwTarget := 0
  fault := none
  env := []
  turns := 0

end Sys2Proof.Machine
end

