-- ==== Sys2Proof/Machine/Memory.lean ====
section
/-! DEFINITION. Memory bytes in canonical form: reads, writes, and runs of bytes at ascending addresses
(20_memory.md R50, R58). No check is made here; the checks are `checkRange` of Machine/Ops.lean. -/

namespace Sys2Proof.Machine

/-- The byte at address `a`: the listed one, else the byte it holds after initialisation (10_state.md R32). -/
def Memory.read : Memory → Nat → Byte
  | [], a => resetByte a
  | (k, b) :: m, a => if k = a then b else Memory.read m a

/-- Every entry of address `a` taken out. -/
def Memory.erase (a : Nat) (m : Memory) : Memory := m.filter (fun c => c.1 != a)

/-- An entry put in before the first entry of a higher address. -/
def Memory.place (a : Nat) (b : Byte) : Memory → Memory
  | [] => [(a, b)]
  | (k, c) :: m => if a < k then (a, b) :: (k, c) :: m else (k, c) :: Memory.place a b m

/-- `MEM[a] <- b`, keeping the canonical form: the byte an unlisted address reads as is not listed. -/
def Memory.write (a : Nat) (b : Byte) (m : Memory) : Memory :=
  if b = resetByte a then Memory.erase a m else Memory.place a b (Memory.erase a m)

/-- The canonical form: addresses strictly rising, each in 0x000-0xFFF (20_memory.md R50), and no entry equal to what
an unlisted address reads as. -/
abbrev Memory.wf (m : Memory) : Prop :=
  m.Pairwise (fun c d => c.1 < d.1) ∧ ∀ c ∈ m, c.1 ≤ 0xFFF ∧ c.2 ≠ resetByte c.1

/-- `MEM[a], MEM[a+1], ..` of `len` bytes, ascending (20_memory.md R58). -/
def Memory.readBytes (m : Memory) (a len : Nat) : List Byte := (List.range len).map (fun k => Memory.read m (a + k))

/-- The bytes laid at `a`, `a+1`, .., ascending, in the order written (20_memory.md R58). -/
def Memory.writeBytes : Nat → List Byte → Memory → Memory
  | _, [], m => m
  | a, b :: bs, m => Memory.writeBytes (a + 1) bs (Memory.write a b m)

end Sys2Proof.Machine
end

