-- ==== Sys2Proof/Machine/Ops.lean ====
section
/-! DEFINITION. The named operations over the state: one update per field, the environment's current inputs, the
program counter's classes (30_encoding.md R78), the call stack (10_state.md R28), the range check (20_memory.md
R53-R56), taking a fault (60_exceptions.md R221), and the fetch (20_memory.md R55). -/

namespace Sys2Proof.Machine

/-! ### Registers and fields -/

/-- `V[r]` (10_state.md R21). -/
def State.reg (s : State) (r : Reg) : Byte := s.v[r.val]

/-- `V[r] <- b` (10_state.md R21): no register is hardwired. -/
def State.setReg (r : Reg) (b : Byte) (s : State) : State := { s with v := s.v.set r.val b }

/-- Every register written at once: `V[k] <- f k`. -/
def State.setRegs (f : Reg → Byte) (s : State) : State :=
  { s with v := #v[f 0, f 1, f 2, f 3, f 4, f 5, f 6, f 7, f 8, f 9, f 10, f 11, f 12, f 13, f 14, f 15] }

/-- `PC <- a`. -/
def State.setPc (a : Word) (s : State) : State := { s with pc := a }

/-- `I <- a`. -/
def State.setI (a : Word) (s : State) : State := { s with i := a }

/-- `DT <- b`. -/
def State.setDt (b : Byte) (s : State) : State := { s with dt := b }

/-- `ST <- b`. -/
def State.setSt (b : Byte) (s : State) : State := { s with st := b }

/-- The whole display written. -/
def State.setDisp (d : Display) (s : State) : State := { s with disp := d }

/-- The whole memory written. -/
def State.setMem (m : Memory) (s : State) : State := { s with mem := m }

/-- `RUN <- r`. -/
def State.setRun (r : RunState) (s : State) : State := { s with run := r }

/-- `KW_TARGET <- x` (10_state.md R35). -/
def State.setKwTarget (x : Reg) (s : State) : State := { s with kwTarget := x }

/-- The byte of memory at `a`. -/
def State.byte (s : State) (a : Nat) : Byte := Memory.read s.mem a

/-- The bytes written at `a` and up. -/
def State.storeBytes (a : Nat) (bs : List Byte) (s : State) : State := s.setMem (Memory.writeBytes a bs s.mem)

/-! ### The environment's inputs -/

/-- The turn the environment takes now: the first fixed one, else the free one of this index (60_exceptions.md
R213-R217). -/
def State.turn (s : State) : Turn :=
  match s.env with
  | t :: _ => t
  | [] =>
    { ticks := Config.freeTicks s.turns
      input :=
        { keyDown := Vector.ofFn (Config.freeKeyDown s.turns)
          keyPress := Config.freeKeyPress s.turns
          randByte := Config.freeRandByte s.turns } }

/-- The inputs of this step (60_exceptions.md R211). -/
def State.input (s : State) : StepInput := s.turn.input

/-- The environment fixes its next turn. -/
def State.offer (t : Turn) (s : State) : State := { s with env := t :: s.env }

/-- The turn is over; the block stores none of its inputs (10_state.md R39). -/
def State.endTurn (s : State) : State := { s with env := s.env.tail, turns := s.turns + 1 }

/-! ### Program counter -/

/-- The sequential class: `PC <- (PC + 2) mod 2^16` (30_encoding.md R78). -/
def State.advance (s : State) : State := s.setPc (s.pc + 2)

/-- The skip class: PC + 4 if the condition holds, else PC + 2, both mod 2^16 (30_encoding.md R78). -/
def State.skipIf (c : Bool) (s : State) : State := s.setPc (if c then s.pc + 4 else s.pc + 2)

/-! ### Call stack -/

/-- `SP <- SP + 1`, then `STACK[SP] <- a` (10_state.md R28). -/
def State.push (a : Word) (s : State) : State :=
  { s with sp := s.sp + 1, stack := s.stack.set (s.sp + 1).val a }

/-- `STACK[SP]`. -/
def State.stackTop (s : State) : Word := s.stack[s.sp.val]

/-- `SP <- SP - 1`; the entry keeps its value (40_control_flow.md R101). -/
def State.pop (s : State) : State := { s with sp := s.sp - 1 }

/-! ### Checks -/

/-- The two kinds of access `CheckRange` takes (00_scope.md R12). -/
inductive AccessKind where
  | read
  | write
deriving DecidableEq, Repr

/-- Whether an access of one byte at `a` faults: a read above 0xFFF (20_memory.md R53), a write above 0xFFF or, under
`PROTECT_RESERVED`, at or below 0x1FF (R54). -/
def badAddress (protect : Bool) (kind : AccessKind) (a : Nat) : Bool :=
  match kind with
  | .read => decide (a > 0xFFF)
  | .write => decide (a > 0xFFF) || (protect && decide (a ≤ 0x1FF))

/-- `CheckRange(a, len, kind)` (20_memory.md R56): the lowest failing address of `a .. a+len-1`, exact naturals (R57),
or none when the whole range may be accessed. -/
def checkRange (a len : Nat) (kind : AccessKind) : Option Nat :=
  ((List.range len).map (fun k => a + k)).find? (badAddress Param.protectReserved kind)

/-! ### Faults -/

/-- Fault entry (60_exceptions.md R221): `FAULT <- {cause, pc: PC, word, addr}`, `RUN <- Halted`, and nothing else.
There is no return from a fault (R228); only reset leaves Halted (R222). -/
def State.raise (cause : FaultCause) (word : Option Word) (addr : Option Nat) (s : State) : State :=
  { s with run := .halted, fault := some { cause := cause, pc := s.pc, word := word, addr := addr } }

/-- The effect of an instruction that first checks a range of memory: an AddressFault at the lowest bad address, or the
effect (00_scope.md R13: all checks come before the first write). -/
def guardRange (i : Instr) (a len : Nat) (kind : AccessKind) (effect : State → State) (s : State) : State :=
  match checkRange a len kind with
  | some bad => s.raise .address (some (encode i)) (some bad)
  | none => effect s

/-! ### Fetch -/

/-- `Fetch(PC)` (20_memory.md R55): the big-endian word at PC and PC + 1, or the address that faults. -/
def fetch (s : State) : Except Nat Word :=
  match checkRange s.pc.toNat 2 .read with
  | some bad => .error bad
  | none => .ok (wordOfBytes (s.byte s.pc.toNat) (s.byte (s.pc.toNat + 1)))

/-- A word laid at `a` as memory holds instructions (20_memory.md R58). -/
def State.storeWord (a : Nat) (w : Word) (s : State) : State := s.storeBytes a [firstByte w, secondByte w]

/-! ### Outcomes -/

/-- A change of the next state; a stop stays as it is. -/
def mapNext (f : State → State) : Host.Outcome State Fault Refusal → Host.Outcome State Fault Refusal
  | .next s => .next (f s)
  | .fault r => .fault r
  | .refused r => .refused r

end Sys2Proof.Machine
end

