-- ==== Sys2Proof/Machine/Flags.lean ====
section
/-! DEFINITION. Every flag computation (10_state.md R27), and the two writes of a flag-writing operation in the order
of `FLAG_WRITE_ORDER` (41_alu.md R120). -/

namespace Sys2Proof.Machine

/-- A flag as VF holds it: 1 or 0 (10_state.md R27). -/
def flagByte (b : Bool) : Byte := if b then 1 else 0

/-- Carry: `V[x] + V[y] > 255`, the sum exact (41_alu.md R127). -/
def carryOut (a b : Byte) : Bool := decide (a.toNat + b.toNat > 255)

/-- No borrow in `a - b`: `a >= b` (41_alu.md R128, R130). -/
def noBorrow (a b : Byte) : Bool := decide (a.toNat ≥ b.toNat)

/-- The bit a right shift shifts out, bit 0 (41_alu.md R129). -/
def shiftedOutRight (a : Byte) : Bool := a.getLsbD 0

/-- The bit a left shift shifts out, bit 7 (41_alu.md R131). -/
def shiftedOutLeft (a : Byte) : Bool := a.getLsbD 7

/-- The flag into VF and the result into V[x], both computed before either write (41_alu.md R120). -/
def State.writeFlagAndResult (order : Config.FlagWriteOrder) (x : Reg) (result : Byte) (flag : Bool) (s : State) :
    State :=
  match order with
  | .vfFirst => (s.setReg VF (flagByte flag)).setReg x result
  | .vfLast => (s.setReg x result).setReg VF (flagByte flag)

end Sys2Proof.Machine
end

