-- ==== Sys2Proof/Machine/Alu.lean ====
section
/-! DEFINITION. Register loads and ALU (41_alu.md). Every operand is read before any write (00_scope.md R13). -/

namespace Sys2Proof.Machine

/-- LD Vx, kk (R121). -/
def execLdImm (x : Reg) (kk : Byte) (s : State) : Host.Outcome State Fault Refusal :=
  .next (s.setReg x kk).advance

/-- ADD Vx, kk (R122): mod 2^8, no flag. -/
def execAddImm (x : Reg) (kk : Byte) (s : State) : Host.Outcome State Fault Refusal :=
  .next (s.setReg x (s.reg x + kk)).advance

/-- LD Vx, Vy (R123). -/
def execLdReg (x y : Reg) (s : State) : Host.Outcome State Fault Refusal :=
  .next (s.setReg x (s.reg y)).advance

/-- OR Vx, Vy (R124): VF is not reset (D7). -/
def execOr (x y : Reg) (s : State) : Host.Outcome State Fault Refusal :=
  .next (s.setReg x (s.reg x ||| s.reg y)).advance

/-- AND Vx, Vy (R125): VF is not reset (D7). -/
def execAnd (x y : Reg) (s : State) : Host.Outcome State Fault Refusal :=
  .next (s.setReg x (s.reg x &&& s.reg y)).advance

/-- XOR Vx, Vy (R126): VF is not reset (D7). -/
def execXor (x y : Reg) (s : State) : Host.Outcome State Fault Refusal :=
  .next (s.setReg x (s.reg x ^^^ s.reg y)).advance

/-- ADD Vx, Vy (R127): VF = carry. -/
def execAdd (x y : Reg) (s : State) : Host.Outcome State Fault Refusal :=
  .next (s.writeFlagAndResult Param.flagWriteOrder x (s.reg x + s.reg y) (carryOut (s.reg x) (s.reg y))).advance

/-- SUB Vx, Vy (R128): VF = no borrow in V[x] - V[y]. -/
def execSub (x y : Reg) (s : State) : Host.Outcome State Fault Refusal :=
  .next (s.writeFlagAndResult Param.flagWriteOrder x (s.reg x - s.reg y) (noBorrow (s.reg x) (s.reg y))).advance

/-- SHR Vx (R129): V[x] logically right by one, VF = bit 0 before; y is not read. -/
def execShr (x _y : Reg) (s : State) : Host.Outcome State Fault Refusal :=
  .next (s.writeFlagAndResult Param.flagWriteOrder x (s.reg x >>> 1) (shiftedOutRight (s.reg x))).advance

/-- SUBN Vx, Vy (R130): VF = no borrow in V[y] - V[x]. -/
def execSubn (x y : Reg) (s : State) : Host.Outcome State Fault Refusal :=
  .next (s.writeFlagAndResult Param.flagWriteOrder x (s.reg y - s.reg x) (noBorrow (s.reg y) (s.reg x))).advance

/-- SHL Vx (R131): V[x] left by one mod 2^8, VF = bit 7 before; y is not read. -/
def execShl (x _y : Reg) (s : State) : Host.Outcome State Fault Refusal :=
  .next (s.writeFlagAndResult Param.flagWriteOrder x (s.reg x <<< 1) (shiftedOutLeft (s.reg x))).advance

/-- RND Vx, kk (R132): this step's random byte masked by kk. -/
def execRnd (x : Reg) (kk : Byte) (s : State) : Host.Outcome State Fault Refusal :=
  .next (s.setReg x (s.input.randByte &&& kk)).advance

end Sys2Proof.Machine
end

