-- ==== Sys2Proof/Machine/Operands.lean ====
section
/-! DEFINITION. The operand forms beyond a register or an immediate: the zero-extended address, the register range,
the decimal digits, the font glyph, the index sum, and the tested key (30_encoding.md R73, R74; 42_index_memory.md
R151-R154; 44_keys_timers.md R190). -/

namespace Sys2Proof.Machine

/-- `zext_16(nnn)` (30_encoding.md R73). -/
def addressOperand (nnn : Addr12) : Word := nnn.setWidth 16

/-- `zext_16(nnn) + zext_16(V[0])` (40_control_flow.md R108). -/
def indexedTarget (nnn : Addr12) (v0 : Byte) : Word := nnn.setWidth 16 + v0.setWidth 16

/-- `V[0], .., V[x]`, the inclusive range of Fx55 (30_encoding.md R74). -/
def State.regsUpTo (s : State) (x : Reg) : List Byte := s.v.toList.take (x.val + 1)

/-- The hundreds, tens and ones digits of `v` (42_index_memory.md R153). -/
def bcdDigits (v : Byte) : List Byte :=
  [BitVec.ofNat 8 (v.toNat / 100), BitVec.ofNat 8 (v.toNat / 10 % 10), BitVec.ofNat 8 (v.toNat % 10)]

/-- The digit Fx29 takes from V[x], by `FONT_INDEX_MODE` (42_index_memory.md R152). -/
def glyphDigit (mode : Config.FontIndexMode) (v : Byte) : Nat :=
  match mode with
  | .mask => v.toNat % 16
  | .linear => v.toNat

/-- `5 * d`, where glyph d starts (42_index_memory.md R152). -/
def glyphAddress (mode : Config.FontIndexMode) (v : Byte) : Word := BitVec.ofNat 16 (5 * glyphDigit mode v)

/-- `(I + V[x]) mod I_WRAP_MODULUS` (42_index_memory.md R151). -/
def indexSum (modulus : Nat) (i : Word) (v : Byte) : Word := BitVec.ofNat 16 ((i.toNat + v.toNat) % modulus)

/-- `V[x] <= 0xF and KeyDown(V[x])` (44_keys_timers.md R190, D17). -/
def State.keyHeld (s : State) (v : Byte) : Bool :=
  if h : v.toNat < 16 then s.input.keyDown[v.toNat] else false

/-- A key value as a register holds it (44_keys_timers.md R197). -/
def keyByte (k : Key) : Byte := BitVec.ofNat 8 k.val

end Sys2Proof.Machine
end

