-- ==== Sys2Proof/Machine/ControlFlow.lean ====
section
/-! DEFINITION. Control transfer and skips (40_control_flow.md). -/

namespace Sys2Proof.Machine

/-- RET (R101): StackUnderflow when SP = 0, else the popped address as it is. -/
def execRet (s : State) : Host.Outcome State Fault Refusal :=
  .next (if s.sp = 0 then s.raise .stackUnderflow (some (encode .ret)) none else s.pop.setPc s.stackTop)

/-- JP nnn (R102). -/
def execJp (nnn : Addr12) (s : State) : Host.Outcome State Fault Refusal :=
  .next (s.setPc (addressOperand nnn))

/-- CALL nnn (R103): StackOverflow when SP = 15, else the address after the CALL is pushed. -/
def execCall (nnn : Addr12) (s : State) : Host.Outcome State Fault Refusal :=
  .next
    (if s.sp = 15 then s.raise .stackOverflow (some (encode (.call nnn))) none
    else (s.push (s.pc + 2)).setPc (addressOperand nnn))

/-- SE Vx, kk (R104). -/
def execSeImm (x : Reg) (kk : Byte) (s : State) : Host.Outcome State Fault Refusal :=
  .next (s.skipIf (s.reg x == kk))

/-- SNE Vx, kk (R105). -/
def execSneImm (x : Reg) (kk : Byte) (s : State) : Host.Outcome State Fault Refusal :=
  .next (s.skipIf (s.reg x != kk))

/-- SE Vx, Vy (R106). -/
def execSeReg (x y : Reg) (s : State) : Host.Outcome State Fault Refusal :=
  .next (s.skipIf (s.reg x == s.reg y))

/-- SNE Vx, Vy (R107). -/
def execSneReg (x y : Reg) (s : State) : Host.Outcome State Fault Refusal :=
  .next (s.skipIf (s.reg x != s.reg y))

/-- JP V0, nnn (R108): the register is always V0. With nnn + V[0] = PC it changes nothing, like the 1nnn self-jump,
though the derived list of 60_exceptions.md R236 does not name it. DEDUCED from R108, log 15. -/
def execJpV0 (nnn : Addr12) (s : State) : Host.Outcome State Fault Refusal :=
  .next (s.setPc (indexedTarget nnn (s.reg 0)))

end Sys2Proof.Machine
end

