-- ==== Sys2Proof/Machine/Display.lean ====
section
/-! DEFINITION. The display, the XOR sprite-blit engine and its instructions (43_display.md; 10_state.md R31). -/

namespace Sys2Proof.Machine

/-- Pixel `DISP[row mod 32][col mod 64]` (10_state.md R31). -/
def Display.pixel (d : Display) (row col : Nat) : Bool :=
  (d[row % 32]'(Nat.mod_lt _ (by decide)))[col % 64]'(Nat.mod_lt _ (by decide))

/-- Pixel `DISP[row mod 32][col mod 64]` turned over. -/
def Display.toggle (d : Display) (row col : Nat) : Display :=
  d.set (row % 32)
    ((d[row % 32]'(Nat.mod_lt _ (by decide))).set (col % 64) (!Display.pixel d row col) (Nat.mod_lt _ (by decide)))
    (Nat.mod_lt _ (by decide))

/-- Every pixel off (R170). -/
def Display.clear : Display := Vector.replicate 32 (Vector.replicate 64 false)

/-- A draw in progress: the display, and whether a pixel has gone from on to off. -/
structure Blit where
  disp : Display
  hit : Bool
deriving DecidableEq, Repr

/-- One set sprite bit: `if DISP[row][col] == 1: hit <- 1`, then the XOR (R171). -/
def blitPixel (row col : Nat) (b : Blit) : Blit :=
  { disp := Display.toggle b.disp row col, hit := b.hit || Display.pixel b.disp row col }

/-- One sprite byte: columns 0 to 7 left to right, bit 7 leftmost (R171, R173). -/
def blitRow (byte : Byte) (x0 row : Nat) (b : Blit) : Blit :=
  (List.range 8).foldl (fun b c => if byte.getLsbD (7 - c) then blitPixel row (x0 + c) b else b) b

/-- The sprite's bytes, top to bottom (R171). -/
def blitSprite : List Byte → Nat → Nat → Blit → Blit
  | [], _, _, b => b
  | byte :: rest, x0, row, b => blitSprite rest x0 (row + 1) (blitRow byte x0 row b)

/-- The draw of the `n` sprite bytes at I with its top left pixel at (V[x], V[y]) (R171). -/
def State.blit (s : State) (x y : Reg) (n : Nat) : Blit :=
  blitSprite (Memory.readBytes s.mem s.i.toNat n) (s.reg x).toNat (s.reg y).toNat { disp := s.disp, hit := false }

/-- CLS (R170). -/
def execCls (s : State) : Host.Outcome State Fault Refusal :=
  .next (s.setDisp Display.clear).advance

/-- DRW Vx, Vy, n (R171): VF = collision, written last. -/
def execDrw (x y : Reg) (n : Fin 16) (s : State) : Host.Outcome State Fault Refusal :=
  .next
    (guardRange (.drw x y n) s.i.toNat n.val .read
      (fun s => ((s.setDisp (s.blit x y n.val).disp).setReg VF (flagByte (s.blit x y n.val).hit)).advance) s)

end Sys2Proof.Machine
end

