-- ==== Sys2Proof/Machine/IndexMemory.lean ====
section
/-! DEFINITION. Index register and memory transfer (42_index_memory.md). I is left as it is by the transfers (D20). -/

namespace Sys2Proof.Machine

/-- LD I, nnn (R150). -/
def execLdI (nnn : Addr12) (s : State) : Host.Outcome State Fault Refusal :=
  .next (s.setI (addressOperand nnn)).advance

/-- ADD I, Vx (R151): does not set VF (C5). -/
def execAddI (x : Reg) (s : State) : Host.Outcome State Fault Refusal :=
  .next (s.setI (indexSum Param.iWrapModulus s.i (s.reg x))).advance

/-- LD F, Vx (R152). -/
def execLdFont (x : Reg) (s : State) : Host.Outcome State Fault Refusal :=
  .next (s.setI (glyphAddress Param.fontIndexMode (s.reg x))).advance

/-- LD B, Vx (R153): three decimal digits at I, I+1, I+2. -/
def execLdBcd (x : Reg) (s : State) : Host.Outcome State Fault Refusal :=
  .next
    (guardRange (.ldBcd x) s.i.toNat 3 .write (fun s => (s.storeBytes s.i.toNat (bcdDigits (s.reg x))).advance) s)

/-- LD [I], Vx (R154): V[0] .. V[x] at I .. I+x. -/
def execStoreRegs (x : Reg) (s : State) : Host.Outcome State Fault Refusal :=
  .next
    (guardRange (.storeRegs x) s.i.toNat (x.val + 1) .write
      (fun s => (s.storeBytes s.i.toNat (s.regsUpTo x)).advance) s)

/-- LD Vx, [I] (R155): V[0] .. V[x] from I .. I+x; V[x+1] .. V[15] are unchanged. -/
def execLoadRegs (x : Reg) (s : State) : Host.Outcome State Fault Refusal :=
  .next
    (guardRange (.loadRegs x) s.i.toNat (x.val + 1) .read
      (fun s => (s.setRegs (fun k => if k ≤ x then s.byte (s.i.toNat + k.val) else s.reg k)).advance) s)

end Sys2Proof.Machine
end

