-- ==== Sys2Proof/Machine/KeysTimers.lean ====
section
/-! DEFINITION. Keypad and timer instructions (44_keys_timers.md R190-R195). The step that resolves the wait of Fx0A is
`stepAwaitingKey` of Machine/Cycle.lean. -/

namespace Sys2Proof.Machine

/-- SKP Vx (R190). -/
def execSkp (x : Reg) (s : State) : Host.Outcome State Fault Refusal :=
  .next (s.skipIf (s.keyHeld (s.reg x)))

/-- SKNP Vx (R191). -/
def execSknp (x : Reg) (s : State) : Host.Outcome State Fault Refusal :=
  .next (s.skipIf (!s.keyHeld (s.reg x)))

/-- LD Vx, DT (R192). -/
def execLdRegDt (x : Reg) (s : State) : Host.Outcome State Fault Refusal :=
  .next (s.setReg x s.dt).advance

/-- LD Vx, K (R193): it only enters the wait; PC stays at this instruction and no event is consumed (D18). -/
def execLdRegKey (x : Reg) (s : State) : Host.Outcome State Fault Refusal :=
  .next ((s.setKwTarget x).setRun .awaitingKey)

/-- LD DT, Vx (R194). -/
def execLdDtReg (x : Reg) (s : State) : Host.Outcome State Fault Refusal :=
  .next (s.setDt (s.reg x)).advance

/-- LD ST, Vx (R195). -/
def execLdStReg (x : Reg) (s : State) : Host.Outcome State Fault Refusal :=
  .next (s.setSt (s.reg x)).advance

end Sys2Proof.Machine
end

