-- ==== Sys2Proof/Machine/Environment.lean ====
section
/-! DEFINITION. The environment's operations other than step, and what it reads (60_exceptions.md R210-R217;
70_reset_and_hazards.md R240-R244). -/

namespace Sys2Proof.Machine

/-! ### The tick -/

/-- One timer after one tick: "decremented by exactly 1 ... while nonzero, otherwise held at 0" (10_state.md R30). -/
def tickTimer (b : Byte) : Byte := if b = 0 then b else b - 1

/-- `tick()` (60_exceptions.md R216): both timers, in every run state; nothing else changes. -/
def tick (s : State) : State := { s with dt := tickTimer s.dt, st := tickTimer s.st }

/-- One timer after `n` ticks. A timer at 0 is held there whatever `n` is. -/
def countDown (n : Nat) (b : Byte) : Byte := if b = 0 then b else BitVec.ofNat 8 (b.toNat - n)

/-- `n` ticks in a row. -/
def tickMany (n : Nat) (s : State) : State := { s with dt := countDown n s.dt, st := countDown n s.st }

/-! ### Reset and load -/

/-- Initialisation from any state (70_reset_and_hazards.md R240), the only way out of Halted (60_exceptions.md R222):
every piece of the block's state as after reset. The environment goes on where it was (log 3). -/
def reinitialise (s : State) : State := { State.reset with env := s.env, turns := s.turns }

/-- `load(image)` (70_reset_and_hazards.md R243): the bytes verbatim from 0x200, or a rejection that writes nothing. -/
def load (image : List Byte) (s : State) : Host.Outcome State Fault Refusal :=
  if imageFits image then .next (s.storeBytes 0x200 image) else .refused .imageTooLong

/-! ### What the environment reads -/

/-- The fault registers (10_state.md R37): the latch as the environment reads it, register by register. -/
structure FaultRegisters where
  /-- FAULT.cause, 3 bits: a code of 60_exceptions.md R220, 0 for none. -/
  cause : BitVec 3
  /-- FAULT.pc, 16 bits with no valid bit: it reads 0 until a fault is latched. -/
  pc : Word
  /-- FAULT.word and its valid bit. -/
  word : Option Word
  /-- FAULT.addr and its valid bit. -/
  addr : Option Nat
deriving DecidableEq, Repr

/-- The code of a fault cause (60_exceptions.md R220). -/
def causeCode : FaultCause → BitVec 3
  | .decode => 1
  | .stackOverflow => 2
  | .stackUnderflow => 3
  | .address => 4

/-- The fault registers of a latch. The latch stores them once; with nothing latched each holds its reset value
(10_state.md R36, R37). -/
def faultRegisters : Option FaultRecord → FaultRegisters
  | none => { cause := 0, pc := 0, word := none, addr := none }
  | some r => { cause := causeCode r.cause, pc := r.pc, word := r.word, addr := r.addr }

/-- The outputs the environment may read between operations (60_exceptions.md R212). -/
structure Output where
  display : Display
  keyWait : Bool
  run : RunState
  fault : Option FaultRecord
  faultRegisters : FaultRegisters
  soundTimer : Byte
deriving DecidableEq, Repr

/-- The outputs of a state; a read changes no state (R212). -/
def State.output (s : State) : Output where
  display := s.disp
  keyWait := s.run == .awaitingKey
  run := s.run
  fault := s.fault
  faultRegisters := Sys2Proof.Machine.faultRegisters s.fault
  soundTimer := s.st

/-- What a step call returns to the environment (60_exceptions.md R211). -/
inductive Reply where
  | ok
  | fault (latch : Option FaultRecord)
deriving DecidableEq, Repr

/-- "Ok, or Fault(FAULT) if RUN = Halted after the step" (R211), read from the state after the step. -/
def State.reply (s : State) : Reply := if s.run = .halted then .fault s.fault else .ok

end Sys2Proof.Machine
end

