-- ==== Sys2Proof/Machine/Cycle.lean ====
section
/-! DEFINITION. The step in each run state (60_exceptions.md R211): the fetch-decode-execute cycle (30_encoding.md
R75), the key wait (44_keys_timers.md R196, R197) and Halted (60_exceptions.md R222). -/

namespace Sys2Proof.Machine

/-- `Step_Running` (30_encoding.md R75): fetch, which may raise AddressFault; decode, which may raise DecodeFault;
execute. -/
def stepRunning (s : State) : Host.Outcome State Fault Refusal :=
  match fetch s with
  | .error bad => .next (s.raise .address none (some bad))
  | .ok w =>
    match decodeWord w with
    | none => .next (s.raise .decode (some w) none)
    | some i => exec i s

/-- The end of the wait (44_keys_timers.md R197): the key value into V[KW_TARGET], PC past the Fx0A, RUN back to
Running. -/
def State.resolveWait (k : Key) (s : State) : State :=
  ((s.setReg s.kwTarget (keyByte k)).setRun .running).advance

/-- `Step_AwaitingKey` (44_keys_timers.md R197): nothing without an event; no fetch, no decode (R196). -/
def stepAwaitingKey (s : State) : Host.Outcome State Fault Refusal :=
  .next
    (match s.input.keyPress with
    | none => s
    | some k => s.resolveWait k)

/-- The step by run state (60_exceptions.md R211); "a step in Halted changes nothing" (R222). -/
def stepByRunState (s : State) : Host.Outcome State Fault Refusal :=
  match s.run with
  | .running => stepRunning s
  | .awaitingKey => stepAwaitingKey s
  | .halted => .next s

/-- One turn: the environment's ticks since the last step, then the step with the turn's inputs (60_exceptions.md
R217), and the turn is over. -/
def takeTurn (s : State) : Host.Outcome State Fault Refusal :=
  mapNext State.endTurn (stepByRunState (tickMany s.turn.ticks s))

/-- Where the next fetch can find a word: PC, or 0x200 when no word fits at PC (log 12). -/
def fetchPlace (s : State) : Word := if s.pc.toNat ≤ 0xFFE then s.pc else 0x200

/-- `s` ready to run the word `w` in its very next step (log 12). -/
def placeFetchWord (w : Word) (s : State) : State :=
  ((s.setPc (fetchPlace s)).setRun .running).storeWord (fetchPlace s).toNat w

end Sys2Proof.Machine
end

