-- ==== Sys2Proof/Machine/Step.lean ====
section
/-! DEFINITION. The machine's step and the placing of an instruction word where the next step fetches it. -/

namespace Sys2Proof.Machine

/-- One step of the machine: the spec's `step(in)` (60_exceptions.md R211), with the ticks before it. -/
def step (s : State) : Host.Outcome State Fault Refusal := takeTurn s

/-- `s` with the instruction word `w` stored where `step` fetches its next instruction (log 12). -/
def State.withFetchWord (s : State) (nbits w : Nat) : State := placeFetchWord (tableWord nbits w) s

end Sys2Proof.Machine
end

