-- ==== Sys2Proof/Machine/Operations.lean ====
section
/-! DEFINITION. The block's whole interface: the four operations its environment calls (60_exceptions.md R210, R211,
R216; 70_reset_and_hazards.md R240, R243; D1). -/

namespace Sys2Proof.Machine

/-- An operation of the environment. -/
inductive Op where
  /-- Initialisation (70_reset_and_hazards.md R240). -/
  | reset
  /-- The program load (70_reset_and_hazards.md R243). -/
  | load (image : List Byte)
  /-- `step(in)` (60_exceptions.md R211). -/
  | step (input : StepInput)
  /-- `tick()` (60_exceptions.md R216). -/
  | tick
deriving DecidableEq, Repr

/-- What an operation does to the state. `step(in)` is the machine's step on a turn with no tick and these inputs. -/
def perform (op : Op) (s : State) : Host.Outcome State Fault Refusal :=
  match op with
  | .reset => .next (reinitialise s)
  | .load image => load image s
  | .step input => step (s.offer { ticks := 0, input := input })
  | .tick => .next (tick s)

/-- Operations one after another, in a total order (60_exceptions.md R210), up to the first that is not accepted. -/
def performAll : List Op → State → Host.Outcome State Fault Refusal
  | [], s => .next s
  | op :: ops, s =>
    match perform op s with
    | .next t => performAll ops t
    | .fault r => .fault r
    | .refused r => .refused r

end Sys2Proof.Machine
end

