-- ==== Sys2Proof/Safety.lean ====
section
/-! DEFINITION. The terms claims use: what an operation completes with, what it leaves unchanged, the instruction
at PC, the sprite as a set of pixels, the invariant of the machine, and a safe run. -/

namespace Sys2Proof.Machine

/-! ### Completion and frame -/

/-- The operation answers a next state, and `P` holds of it. -/
def CompletesWith (o : Host.Outcome State Fault Refusal) (P : State → Prop) : Prop := ∃ t, o = .next t ∧ P t

/-- A piece of the state that an instruction may write. -/
inductive Part where
  | reg (r : Reg)
  | index
  | pc
  | byte (a : Nat)
  | stackEntry (j : Fin 16)
  | sp
  | dt
  | st
  | display
  | run
  | kwTarget
  | fault
deriving DecidableEq, Repr

/-- `t` differs from `s` at most in the parts of `W`: "State a rule does not write is unchanged" (00_scope.md R13).
The environment's turns are not the instruction's to change and are never among the parts. -/
structure ChangesOnly (W : List Part) (s t : State) : Prop where
  regs : ∀ r, .reg r ∉ W → t.reg r = s.reg r
  index : .index ∉ W → t.i = s.i
  pc : .pc ∉ W → t.pc = s.pc
  bytes : ∀ a, .byte a ∉ W → t.byte a = s.byte a
  stack : ∀ j : Fin 16, .stackEntry j ∉ W → t.stack[j.val] = s.stack[j.val]
  sp : .sp ∉ W → t.sp = s.sp
  dt : .dt ∉ W → t.dt = s.dt
  st : .st ∉ W → t.st = s.st
  display : .display ∉ W → t.disp = s.disp
  run : .run ∉ W → t.run = s.run
  kwTarget : .kwTarget ∉ W → t.kwTarget = s.kwTarget
  fault : .fault ∉ W → t.fault = s.fault
  env : t.env = s.env
  turns : t.turns = s.turns

/-- The bytes `a .. a+len-1`. -/
def byteParts (a len : Nat) : List Part := (List.range len).map (fun k => .byte (a + k))

/-- The registers `V[0] .. V[x]`. -/
def regParts (x : Reg) : List Part := (List.range (x.val + 1)).map (fun k => .reg (Fin.ofNat 16 k))

/-- The frame of a whole step: the environment's ticks, then changes in the parts of `W` only, then the turn is over. -/
def StepChangesOnly (W : List Part) (s t : State) : Prop :=
  ∃ u, ChangesOnly W (tickMany s.turn.ticks s) u ∧ t = u.endTurn

/-- The operation raised no fault: RUN and FAULT are as before. -/
def RaisesNothing (s t : State) : Prop := t.run = s.run ∧ t.fault = s.fault

/-- The words with these fixed bits are exactly the words of the instructions of this shape (30_encoding.md R77). -/
def EncodedBy (mask pattern : Word) (shape : Instr → Prop) : Prop :=
  ∀ w : Word, w &&& mask = pattern ↔ ∃ i, decodeWord w = some i ∧ shape i

/-- The two bytes at PC, both in memory, decode to `i`. -/
def AtPc (s : State) (i : Instr) : Prop :=
  s.pc.toNat ≤ 0xFFE ∧ decode [s.byte s.pc.toNat, s.byte (s.pc.toNat + 1)] = .ok (i, [])

/-- An access of this kind faults at `a`: a read above 0xFFF (20_memory.md R53), a store above 0xFFF or into the
protected 0x000-0x1FF (R54). -/
def AccessForbidden (kind : AccessKind) (a : Nat) : Prop :=
  match kind with
  | .read => a > 0xFFF
  | .write => a > 0xFFF ∨ a ≤ 0x1FF

/-- The instructions that can raise a fault of this cause: an instruction "can then raise only the one category of its
own row" (60_exceptions.md R227). -/
def RaisedBy (c : FaultCause) (i : Instr) : Prop :=
  match c with
  | .decode => False
  | .stackOverflow => ∃ nnn, i = .call nnn
  | .stackUnderflow => i = .ret
  | .address => (∃ x y n, i = .drw x y n) ∨ ∃ x, i = .ldBcd x ∨ i = .storeRegs x ∨ i = .loadRegs x

/-! ### The sprite as a set of pixels -/

/-- The sprite of `n` bytes at I, placed at (V[x], V[y]) with wrap-around, has a 1 bit on pixel (row, col)
(43_display.md R171, R173). -/
def spriteCovers (s : State) (x y : Reg) (n row col : Nat) : Prop :=
  ∃ r < n, ∃ c < 8, (s.byte (s.i.toNat + r)).getLsbD (7 - c) = true ∧
    ((s.reg y).toNat + r) % 32 = row ∧ ((s.reg x).toNat + c) % 64 = col

/-! ### The invariant -/

/-- A record the fault latch may hold (60_exceptions.md R220). -/
def FaultRecord.Lawful (r : FaultRecord) : Prop :=
  match r.cause with
  | .decode => (∃ w, r.word = some w ∧ decodeWord w = none) ∧ r.addr = none
  | .stackOverflow => (∃ nnn, r.word = some (encode (.call nnn))) ∧ r.addr = none
  | .stackUnderflow => r.word = some (encode .ret) ∧ r.addr = none
  | .address => ∃ a, r.addr = some a ∧ (a > 0xFFF ∨ a ≤ 0x1FF)

/-- What holds of the machine between operations. -/
structure Inv (s : State) : Prop where
  /-- Memory is in its canonical form, within 0x000-0xFFF (20_memory.md R50). -/
  memory : Memory.wf s.mem
  /-- 0x000-0x1FF holds the font and zeros: "never mutated thereafter" (20_memory.md R51). -/
  reserved : ∀ a, a ≤ 0x1FF → s.byte a = resetByte a
  /-- "the largest PC value the rules can produce is 0x10FE" (10_state.md R26). -/
  pcBound : s.pc.toNat ≤ 0x10FE
  /-- The wait stands at an Fx0A that was fetched (44_keys_timers.md R197). -/
  waitPc : s.run = .awaitingKey → s.pc.toNat ≤ 0xFFE
  /-- "STACK[0] is never written" (10_state.md R28). -/
  stackBottom : s.stack[0] = 0
  /-- A return address is at most 0x1000 (40_control_flow.md R103). -/
  stackBound : ∀ j : Fin 16, s.stack[j.val].toNat ≤ 0x1000
  /-- Halted exactly when a fault is latched (60_exceptions.md R221, R222). -/
  haltedLatched : s.run = .halted ↔ s.fault.isSome
  /-- The latch holds a lawful record of the PC that stays at the faulting instruction (R220, R221). -/
  latch : ∀ r, s.fault = some r → r.pc = s.pc ∧ r.Lawful

/-! ### Runs -/

/-- `k` steps of the machine, up to the first that stops. -/
def stepsFrom : Nat → State → Host.Outcome State Fault Refusal
  | 0, s => .next s
  | k + 1, s =>
    match step s with
    | .next t => stepsFrom k t
    | .fault r => .fault r
    | .refused r => .refused r

/-- A safe run: after each of the first `k` steps the machine has a next state and has not halted on a fault. -/
def SafeRun (k : Nat) (s : State) : Prop := ∀ j, j ≤ k → CompletesWith (stepsFrom j s) (fun t => t.run ≠ .halted)

end Sys2Proof.Machine
end

