-- ==== Sys2Proof/Certificates/Slice0/Obligations.lean ====
section
/-! DEFINITION. The statements for the provers. Each docstring says which rule of spec/ its statement formalises.
Where a statement says that it rests on a decision D<n>, that clause is the spec's own choice (92_eei_decisions.md),
and the log entry named with it, or log 11 where none is named, says so. Statements about inputs hold for every turn of the environment, since
`State.env` and `State.turns` range over every value. -/

open Sys2Proof Sys2Proof.Machine

/-! ### Encoding -/

/-- One word of each format and family, written out from its pattern in 30_encoding.md R77. -/
def Obligations.SpecWordsDecodeToTheirInstructions : Prop :=
  decodeTableWord 16 0x00E0 = some .cls ∧ decodeTableWord 16 0x00EE = some .ret ∧
    decodeTableWord 16 0x1234 = some (.jp 0x234) ∧ decodeTableWord 16 0x3310 = some (.seImm 3 0x10) ∧
    decodeTableWord 16 0x8125 = some (.sub 1 2) ∧ decodeTableWord 16 0x83A6 = some (.shr 3 10) ∧
    decodeTableWord 16 0xD012 = some (.drw 0 1 2) ∧ decodeTableWord 16 0xE1A1 = some (.sknp 1) ∧
    decodeTableWord 16 0xF355 = some (.storeRegs 3) ∧ decodeTableWord 16 0x5121 = none ∧
    decodeTableWord 16 0x01E0 = none

/-- 30_encoding.md section 1 and 3 (fields and formats R72, `Decode(w)` R76, rows R77): the bytes of every instruction
decode to it, with every operand at every value, and the bytes after it are left. -/
def Obligations.DecodingAnEncodedInstructionGivesItBack : Prop :=
  ∀ (i : Instr) (rest : List Byte), decode (encodeBytes i ++ rest) = .ok (i, rest)

/-- 30_encoding.md section 4 (don't-care bits R82): every bit of a legal word is kept by its instruction, so a fault can
record the word. -/
def Obligations.EncodingADecodedWordGivesItBack : Prop :=
  ∀ (w : Word) (i : Instr), decodeWord w = some i → encode i = w

/-- 30_encoding.md section 3 and 4 (R76, R77, R79): the case analysis of the decoder and the mask-and-match rows agree;
a word decodes exactly when it matches a row, and it matches only the row of the instruction it decodes to. -/
def Obligations.AWordDecodesExactlyWhenItMatchesOneRow : Prop :=
  (∀ w : Word, (decodeWord w).isSome = legalWord w) ∧
    ∀ (w : Word) (i : Instr), decodeWord w = some i → ∀ r ∈ opcodeMap, r.accepts w = true ↔ r = i.row

/-! ### Reset, load and tick -/

/-- 10_state.md section 10 (the reset column) and section 13 (the table R41), and 70_reset_and_hazards.md section 1: initialisation from every state. The
font bytes are the spec's general knowledge (log 7); STACK, KW_TARGET and FAULT rest on D24 and D2; that the
environment's turns go on is the model's choice (log 3). -/
def Obligations.InitialisationSetsEveryPieceOfState : Prop :=
  ∀ s : State, CompletesWith (perform .reset s) fun t =>
    (∀ a, t.byte a = if a < 80 then Param.fontBytes.getD a 0 else 0) ∧ (∀ r, t.reg r = 0) ∧ t.i = 0 ∧ t.pc = 0x200 ∧
      (∀ j : Fin 16, t.stack[j.val] = 0) ∧ t.sp = 0 ∧ t.dt = 0 ∧ t.st = 0 ∧
      (∀ row col, Display.pixel t.disp row col = false) ∧ t.run = .running ∧ t.kwTarget = 0 ∧ t.fault = none ∧
      t.output.faultRegisters = { cause := 0, pc := 0, word := none, addr := none } ∧
      t = { State.reset with env := s.env, turns := s.turns }

/-- 70_reset_and_hazards.md section 2 (`load`): an image that fits is copied verbatim to 0x200 and nothing else changes;
a longer one is rejected (D32; that the rejection is a refusal is log 13). -/
def Obligations.LoadCopiesAnImageThatFitsAndRejectsALongerOne : Prop :=
  ∀ (image : List Byte) (s : State),
    (image.length ≤ 3584 → CompletesWith (perform (.load image) s) fun t =>
      (∀ (j : Nat) (h : j < image.length), t.byte (0x200 + j) = image[j]) ∧
        ChangesOnly (byteParts 0x200 image.length) s t) ∧
      (3584 < image.length → perform (.load image) s = .refused .imageTooLong)

/-- 60_exceptions.md section 1 (`tick()`): each timer goes down by one while nonzero, in every run state (D21), and
nothing else changes. -/
def Obligations.ATickCountsBothTimersDownAndChangesNothingElse : Prop :=
  ∀ s : State, CompletesWith (perform .tick s) fun t =>
    t.dt.toNat = s.dt.toNat - 1 ∧ t.st.toNat = s.st.toNat - 1 ∧ ChangesOnly [.dt, .st] s t

/-- 60_exceptions.md section 1 (`tick()`, the interleaving): the ticks a step takes in at once are that many ticks one
after another (log 2). -/
def Obligations.TicksBeforeAStepAreTicksInARow : Prop :=
  ∀ (n : Nat) (s : State), tickMany n s = tick^[n] s

/-! ### The step -/

/-- 30_encoding.md section 3 (the step cycle) and 60_exceptions.md section 1: a step in Running executes the
instruction whose bytes stand at PC, after the environment's ticks, and ends the turn. Called with inputs, it takes
those inputs and no tick (log 1, log 2). -/
def Obligations.AStepRunsTheDecodedInstruction : Prop :=
  ∀ (s : State) (i : Instr), s.run = .running → AtPc s i →
    step s = mapNext State.endTurn (exec i (tickMany s.turn.ticks s)) ∧
      ∀ input : StepInput,
        perform (.step input) s = mapNext State.endTurn (exec i (s.offer { ticks := 0, input := input })) ∧
          (s.offer { ticks := 0, input := input }).input = input

/-- 60_exceptions.md R223: an illegal word halts the machine before any effect, and FAULT.word holds it. -/
def Obligations.AnIllegalWordTakesTheDecodeFault : Prop :=
  ∀ (s : State) (w : Word), s.run = .running → s.pc.toNat ≤ 0xFFE →
    w = wordOfBytes (s.byte s.pc.toNat) (s.byte (s.pc.toNat + 1)) → legalWord w = false →
    CompletesWith (step s) fun t =>
      t.run = .halted ∧ t.fault = some { cause := .decode, pc := s.pc, word := some w, addr := none } ∧
        StepChangesOnly [.run, .fault] s t

/-- 20_memory.md section 2 (the fetch, D9, D10): a fetch past 0xFFE halts the machine with the lowest bad address and no
word. -/
def Obligations.AFetchPastMemoryTakesTheAddressFault : Prop :=
  ∀ s : State, s.run = .running → 0xFFE < s.pc.toNat →
    CompletesWith (step s) fun t =>
      t.run = .halted ∧
        t.fault = some
          { cause := .address, pc := s.pc, word := none
            addr := some (if s.pc.toNat = 0xFFF then 0x1000 else s.pc.toNat) } ∧
        StepChangesOnly [.run, .fault] s t

/-- 44_keys_timers.md section 3 (`Step_AwaitingKey`, D18): a step without an event changes nothing; a step with the event
k writes it, passes the Fx0A and runs on. -/
def Obligations.AWaitingStepOnlyTakesAKeyPress : Prop :=
  ∀ s : State, s.run = .awaitingKey →
    (s.input.keyPress = none → CompletesWith (step s) (StepChangesOnly [] s)) ∧
      ∀ k : Key, s.input.keyPress = some k →
        CompletesWith (step s) fun t =>
          (t.reg s.kwTarget).toNat = k.val ∧ t.pc = s.pc + 2 ∧ t.run = .running ∧
            StepChangesOnly [.reg s.kwTarget, .pc, .run] s t

/-- 44_keys_timers.md section 3 (observable behaviour of the wait): however many steps without an event there are, only
the timers move, by the ticks that came. -/
def Obligations.TheWaitLastsUntilAKeyPress : Prop :=
  ∀ (quiet rest : List Turn) (s : State), s.run = .awaitingKey → s.env = quiet ++ rest →
    (∀ u ∈ quiet, u.input.keyPress = none) →
    stepsFrom quiet.length s =
      .next { tickMany (quiet.map Turn.ticks).sum s with env := rest, turns := s.turns + quiet.length }

/-- 60_exceptions.md section 2 (Halted, D2, D28): a step in Halted changes nothing and reports the latched fault. -/
def Obligations.AHaltedStepChangesNothingAndReportsTheFault : Prop :=
  ∀ s : State, s.run = .halted →
    CompletesWith (step s) fun t => t.reply = .fault s.fault ∧ StepChangesOnly [] s t

/-- 60_exceptions.md section 2 (Halted, D28): whatever operations follow, without a reset the machine stays halted with
the same fault. -/
def Obligations.OnlyResetLeavesHalted : Prop :=
  ∀ (ops : List Op) (s t : State), s.run = .halted → Op.reset ∉ ops → performAll ops s = .next t →
    t.run = .halted ∧ t.fault = s.fault

/-- 60_exceptions.md section 2 and section 6: every fault is taken as a next state, so no instruction and no step ever
stops the machine (log 4). -/
def Obligations.EveryInstructionAndEveryStepAnswersANextState : Prop :=
  (∀ (i : Instr) (s : State), CompletesWith (exec i s) fun _ => True) ∧
    ∀ s : State, CompletesWith (step s) fun _ => True

/-! ### Control transfer -/

/-- 40_control_flow.md R101 and 60_exceptions.md R225. -/
def Obligations.ReturnPopsTheAddressOrUnderflows : Prop :=
  EncodedBy 0xFFFF 0x00EE (· = .ret) ∧ ∀ s : State,
    (s.sp ≠ 0 → CompletesWith (exec .ret s) fun t =>
      t.pc = s.stack[s.sp.val] ∧ t.sp.val = s.sp.val - 1 ∧ t.stack = s.stack ∧ t.reg VF = s.reg VF ∧
        RaisesNothing s t) ∧
      (s.sp = 0 → CompletesWith (exec .ret s) fun t =>
        t.run = .halted ∧ (∃ r, t.fault = some r ∧ r.cause = .stackUnderflow) ∧ ChangesOnly [.run, .fault] s t)

/-- 40_control_flow.md R102, its corner case included: a jump to itself changes nothing. -/
def Obligations.JumpGoesToItsAddress : Prop :=
  EncodedBy 0xF000 0x1000 (∃ nnn, · = .jp nnn) ∧ ∀ (nnn : Addr12) (s : State), CompletesWith (exec (.jp nnn) s) fun t =>
    t.pc.toNat = nnn.toNat ∧ t.reg VF = s.reg VF ∧ RaisesNothing s t ∧ (s.pc.toNat = nnn.toNat → t = s)

/-- 40_control_flow.md R103 and 60_exceptions.md R224. -/
def Obligations.CallPushesTheNextAddressOrOverflows : Prop :=
  EncodedBy 0xF000 0x2000 (∃ nnn, · = .call nnn) ∧ ∀ (nnn : Addr12) (s : State),
    (s.sp ≠ 15 → CompletesWith (exec (.call nnn) s) fun t =>
      t.sp.val = s.sp.val + 1 ∧ t.stack[t.sp.val].toNat = (s.pc.toNat + 2) % 65536 ∧
        (∀ j : Fin 16, j ≠ t.sp → t.stack[j.val] = s.stack[j.val]) ∧ t.pc.toNat = nnn.toNat ∧
        t.reg VF = s.reg VF ∧ RaisesNothing s t) ∧
      (s.sp = 15 → CompletesWith (exec (.call nnn) s) fun t =>
        t.run = .halted ∧ (∃ r, t.fault = some r ∧ r.cause = .stackOverflow) ∧ ChangesOnly [.run, .fault] s t)

/-- 40_control_flow.md section 3 (round trip): a RET with the stack as the CALL left it comes back after the CALL. -/
def Obligations.ReturnComesBackAfterTheMatchingCall : Prop :=
  ∀ (nnn : Addr12) (s : State), s.sp ≠ 15 → CompletesWith (exec (.call nnn) s) fun t =>
    ∀ u : State, u.sp = t.sp → u.stack = t.stack →
      CompletesWith (exec .ret u) fun w => w.pc = s.pc + 2 ∧ w.sp = s.sp

/-- 40_control_flow.md R104, R105. The word passed over is not looked at: the statement holds whatever memory holds. -/
def Obligations.ImmediateSkipsCompareWithTheByte : Prop :=
  EncodedBy 0xF000 0x3000 (∃ x kk, · = .seImm x kk) ∧ EncodedBy 0xF000 0x4000 (∃ x kk, · = .sneImm x kk) ∧
    ∀ (x : Reg) (kk : Byte) (s : State),
    (CompletesWith (exec (.seImm x kk) s) fun t =>
      t.pc.toNat = (s.pc.toNat + if s.reg x = kk then 4 else 2) % 65536 ∧ t.reg VF = s.reg VF ∧
        RaisesNothing s t) ∧
      CompletesWith (exec (.sneImm x kk) s) fun t =>
        t.pc.toNat = (s.pc.toNat + if s.reg x = kk then 2 else 4) % 65536 ∧ t.reg VF = s.reg VF ∧
        RaisesNothing s t

/-- 40_control_flow.md section 2 (5xy0, 9xy0), with their illegal words; that only n = 0 is legal is D8 (log 11). -/
def Obligations.RegisterSkipsCompareTheTwoRegisters : Prop :=
  EncodedBy 0xF00F 0x5000 (∃ x y, · = .seReg x y) ∧ EncodedBy 0xF00F 0x9000 (∃ x y, · = .sneReg x y) ∧
    ∀ (x y : Reg) (s : State),
    (CompletesWith (exec (.seReg x y) s) fun t =>
      t.pc.toNat = (s.pc.toNat + if s.reg x = s.reg y then 4 else 2) % 65536 ∧ t.reg VF = s.reg VF ∧
        RaisesNothing s t) ∧
      (CompletesWith (exec (.sneReg x y) s) fun t =>
        t.pc.toNat = (s.pc.toNat + if s.reg x = s.reg y then 2 else 4) % 65536 ∧ t.reg VF = s.reg VF ∧
        RaisesNothing s t) ∧
      ∀ n : BitVec 4, n ≠ 0 → decodeWord (formXYN 0x5 x y n) = none ∧ decodeWord (formXYN 0x9 x y n) = none

/-- 40_control_flow.md R108: the sum is exact, and a target above 0xFFE faults at the fetch that follows. -/
def Obligations.IndexedJumpAddsV0Exactly : Prop :=
  EncodedBy 0xF000 0xB000 (∃ nnn, · = .jpV0 nnn) ∧
    ∀ (nnn : Addr12) (s : State), CompletesWith (exec (.jpV0 nnn) s) fun t =>
    t.pc.toNat = nnn.toNat + (s.reg 0).toNat ∧ t.reg VF = s.reg VF ∧ RaisesNothing s t ∧
      (0xFFE < t.pc.toNat → ∃ bad, fetch t = .error bad)

/-! ### Loads and ALU -/

/-- 41_alu.md R121, R122, R123. -/
def Obligations.PlainRegisterWritesGiveTheirValues : Prop :=
  EncodedBy 0xF000 0x6000 (∃ x kk, · = .ldImm x kk) ∧ EncodedBy 0xF000 0x7000 (∃ x kk, · = .addImm x kk) ∧
    EncodedBy 0xF00F 0x8000 (∃ x y, · = .ldReg x y) ∧ ∀ (x y : Reg) (kk : Byte) (s : State),
    (CompletesWith (exec (.ldImm x kk) s) fun t =>
      t.reg x = kk ∧ t.pc = s.pc + 2 ∧ (x ≠ VF → t.reg VF = s.reg VF) ∧ RaisesNothing s t) ∧
      (CompletesWith (exec (.addImm x kk) s) fun t =>
        (t.reg x).toNat = ((s.reg x).toNat + kk.toNat) % 256 ∧ t.pc = s.pc + 2 ∧ (x ≠ VF → t.reg VF = s.reg VF) ∧
          RaisesNothing s t) ∧
      CompletesWith (exec (.ldReg x y) s) fun t =>
        t.reg x = s.reg y ∧ t.pc = s.pc + 2 ∧ (x ≠ VF → t.reg VF = s.reg VF) ∧ RaisesNothing s t ∧
          (x = y → ChangesOnly [.pc] s t)

/-- 41_alu.md section 2 (8xy1, 8xy2, 8xy3), bit by bit; VF is not reset (D7). -/
def Obligations.BitwiseOperationsActBitByBit : Prop :=
  ∀ (x y : Reg) (s : State),
    (CompletesWith (exec (.or x y) s) fun t => t.pc = s.pc + 2 ∧ (x ≠ VF → t.reg VF = s.reg VF) ∧
      ∀ b, (t.reg x).getLsbD b = ((s.reg x).getLsbD b || (s.reg y).getLsbD b)) ∧
      (CompletesWith (exec (.and x y) s) fun t => t.pc = s.pc + 2 ∧ (x ≠ VF → t.reg VF = s.reg VF) ∧
        ∀ b, (t.reg x).getLsbD b = ((s.reg x).getLsbD b && (s.reg y).getLsbD b)) ∧
      CompletesWith (exec (.xor x y) s) fun t => t.pc = s.pc + 2 ∧ (x ≠ VF → t.reg VF = s.reg VF) ∧
        ∀ b, (t.reg x).getLsbD b = ((s.reg x).getLsbD b != (s.reg y).getLsbD b)

/-- 41_alu.md section 1 and section 2 (8xy4, 8xy5, 8xy7). For x = F the result is what VF is left with, and the flag is
lost: that order is D6 (log 5). -/
def Obligations.AddAndSubtractGiveResultAndFlag : Prop :=
  ∀ (x y : Reg) (s : State),
    (CompletesWith (exec (.add x y) s) fun t =>
      (t.reg x).toNat = ((s.reg x).toNat + (s.reg y).toNat) % 256 ∧ t.pc = s.pc + 2 ∧
        (x ≠ VF → (t.reg VF).toNat = if (s.reg x).toNat + (s.reg y).toNat > 255 then 1 else 0)) ∧
      (CompletesWith (exec (.sub x y) s) fun t =>
        (t.reg x).toNat = ((s.reg x).toNat + 256 - (s.reg y).toNat) % 256 ∧ t.pc = s.pc + 2 ∧
          (x ≠ VF → (t.reg VF).toNat = if (s.reg x).toNat ≥ (s.reg y).toNat then 1 else 0)) ∧
      CompletesWith (exec (.subn x y) s) fun t =>
        (t.reg x).toNat = ((s.reg y).toNat + 256 - (s.reg x).toNat) % 256 ∧ t.pc = s.pc + 2 ∧
          (x ≠ VF → (t.reg VF).toNat = if (s.reg y).toNat ≥ (s.reg x).toNat then 1 else 0)

/-- 41_alu.md section 1 and section 2 (8xy6, 8xyE): by one bit, whatever y is (D8); for x = F the result is left in VF
(D6, log 5). -/
def Obligations.ShiftsGiveResultAndTheBitShiftedOut : Prop :=
  ∀ (x y : Reg) (s : State),
    (CompletesWith (exec (.shr x y) s) fun t =>
      (t.reg x).toNat = (s.reg x).toNat / 2 ∧ t.pc = s.pc + 2 ∧
        (x ≠ VF → (t.reg VF).toNat = (s.reg x).toNat % 2)) ∧
      CompletesWith (exec (.shl x y) s) fun t =>
        (t.reg x).toNat = 2 * (s.reg x).toNat % 256 ∧ t.pc = s.pc + 2 ∧
          (x ≠ VF → (t.reg VF).toNat = (s.reg x).toNat / 128)

/-- 41_alu.md section 2 (Cxkk, D27): the byte supplied with the step, masked; the statement holds for every byte the
environment may supply, and the environment may supply every byte. -/
def Obligations.RandomByteIsMaskedAndFree : Prop :=
  ∀ (x : Reg) (kk : Byte) (s : State),
    (CompletesWith (exec (.rnd x kk) s) fun t =>
      t.pc = s.pc + 2 ∧ ∀ b, (t.reg x).getLsbD b = (s.input.randByte.getLsbD b && kk.getLsbD b)) ∧
      ∀ r : Byte, ∃ u : Turn, CompletesWith (exec (.rnd x 0xFF) (s.offer u)) fun t => t.reg x = r

/-! ### Index register and memory transfer -/

/-- 42_index_memory.md R150. -/
def Obligations.LoadIndexGivesTheAddress : Prop :=
  EncodedBy 0xF000 0xA000 (∃ nnn, · = .ldI nnn) ∧ ∀ (nnn : Addr12) (s : State), CompletesWith (exec (.ldI nnn) s) fun t =>
    t.i.toNat = nnn.toNat ∧ t.i.toNat ≤ 0xFFF ∧ t.pc = s.pc + 2 ∧ t.reg VF = s.reg VF ∧ RaisesNothing s t

/-- 42_index_memory.md section 1 (Fx1E, Fx29): the sum modulo 2^16 (D12, log 6), the glyph of the low nibble (D13,
log 8); VF is not written. -/
def Obligations.IndexArithmeticWrapsAndPointsAtGlyphs : Prop :=
  ∀ (x : Reg) (s : State),
    (CompletesWith (exec (.addI x) s) fun t =>
      t.i.toNat = (s.i.toNat + (s.reg x).toNat) % 65536 ∧ t.pc = s.pc + 2 ∧ t.reg VF = s.reg VF) ∧
      CompletesWith (exec (.ldFont x) s) fun t =>
        t.i.toNat = 5 * ((s.reg x).toNat % 16) ∧ t.pc = s.pc + 2 ∧ t.reg VF = s.reg VF

/-- 42_index_memory.md section 2 (Fx33): the digits, when I .. I+2 may be stored to (D19, log 9); I is unchanged (D20). -/
def Obligations.BcdStoresTheThreeDigits : Prop :=
  ∀ (x : Reg) (s : State), 0x200 ≤ s.i.toNat → s.i.toNat + 2 ≤ 0xFFF →
    CompletesWith (exec (.ldBcd x) s) fun t =>
      (t.byte s.i.toNat).toNat = (s.reg x).toNat / 100 ∧
        (t.byte (s.i.toNat + 1)).toNat = (s.reg x).toNat / 10 % 10 ∧
        (t.byte (s.i.toNat + 2)).toNat = (s.reg x).toNat % 10 ∧ t.i = s.i ∧ t.pc = s.pc + 2

/-- 42_index_memory.md section 2 (Fx55): V[0] .. V[x] at I .. I+x, when they may be stored to (D19, log 9); I is
unchanged (D20). -/
def Obligations.StoreRegistersCopiesThemToMemory : Prop :=
  ∀ (x : Reg) (s : State), 0x200 ≤ s.i.toNat → s.i.toNat + x.val ≤ 0xFFF →
    CompletesWith (exec (.storeRegs x) s) fun t =>
      (∀ k : Reg, k ≤ x → t.byte (s.i.toNat + k.val) = s.reg k) ∧ t.i = s.i ∧ t.pc = s.pc + 2

/-- 42_index_memory.md section 2 (Fx65): V[0] .. V[x] from I .. I+x anywhere in memory; the registers above x and I are
unchanged (D20). -/
def Obligations.LoadRegistersCopiesThemFromMemory : Prop :=
  ∀ (x : Reg) (s : State), s.i.toNat + x.val ≤ 0xFFF →
    CompletesWith (exec (.loadRegs x) s) fun t =>
      (∀ k : Reg, k ≤ x → t.reg k = s.byte (s.i.toNat + k.val)) ∧ (∀ k : Reg, x < k → t.reg k = s.reg k) ∧
        t.i = s.i ∧ t.pc = s.pc + 2

/-- 42_index_memory.md section 2 (round trip): with the same I and the stored bytes I .. I+x untouched, whatever else has
changed since, the load restores what the store saw (where a store is allowed: D19, log 9). -/
def Obligations.LoadRestoresTheStoredRegisters : Prop :=
  ∀ (x : Reg) (s : State), 0x200 ≤ s.i.toNat → s.i.toNat + x.val ≤ 0xFFF →
    CompletesWith (exec (.storeRegs x) s) fun t =>
      ∀ u : State, u.i = s.i → (∀ k : Reg, k ≤ x → u.byte (s.i.toNat + k.val) = t.byte (s.i.toNat + k.val)) →
        CompletesWith (exec (.loadRegs x) u) fun w => ∀ k : Reg, k ≤ x → w.reg k = s.reg k

/-- 20_memory.md section 2 (`CheckRange`) and 60_exceptions.md section 2 (AddressFault, D4, D19, log 9): at the lowest
address the access may not touch, the instruction faults and moves no byte. -/
def Obligations.ABadRangeFaultsAtItsLowestAddressAndMovesNothing : Prop :=
  ∀ (i : Instr) (len k : Nat) (kind : AccessKind) (s : State),
    ((∃ x, i = .ldBcd x ∧ len = 3 ∧ kind = .write) ∨ (∃ x, i = .storeRegs x ∧ len = x.val + 1 ∧ kind = .write) ∨
      (∃ x, i = .loadRegs x ∧ len = x.val + 1 ∧ kind = .read) ∨
      ∃ x y n, i = .drw x y n ∧ len = n.val ∧ kind = .read) →
    k < len → AccessForbidden kind (s.i.toNat + k) → (∀ j < k, ¬AccessForbidden kind (s.i.toNat + j)) →
    CompletesWith (exec i s) fun t =>
      t.run = .halted ∧
        t.fault = some
          { cause := .address, pc := s.pc, word := some (encode i), addr := some (s.i.toNat + k) } ∧
        ChangesOnly [.run, .fault] s t

/-- 20_memory.md section 4 (instruction-fetch coherence, D26, log 11): each byte of the next instruction that Fx33 or Fx55
stores over, one of the two or both, is what the very next fetch sees, and a byte it does not store to is fetched as
it was (where the store is allowed: D19, log 9). -/
def Obligations.AStoreIsSeenByTheVeryNextFetch : Prop :=
  ∀ (i : Instr) (bs : List Byte) (s : State),
    ((∃ x, i = .ldBcd x ∧ bs = bcdDigits (s.reg x)) ∨ ∃ x, i = .storeRegs x ∧ bs = s.regsUpTo x) →
    0x200 ≤ s.i.toNat → s.i.toNat + bs.length ≤ 0x1000 → (s.pc + 2).toNat ≤ 0xFFE →
    CompletesWith (exec i s) fun t => ∃ first second, fetch t = .ok (wordOfBytes first second) ∧
      (∀ (k : Nat) (h : k < bs.length), (s.pc + 2).toNat = s.i.toNat + k → first = bs[k]) ∧
      (∀ (k : Nat) (h : k < bs.length), (s.pc + 2).toNat + 1 = s.i.toNat + k → second = bs[k]) ∧
      (¬(s.i.toNat ≤ (s.pc + 2).toNat ∧ (s.pc + 2).toNat < s.i.toNat + bs.length) →
        first = s.byte (s.pc + 2).toNat) ∧
      (¬(s.i.toNat ≤ (s.pc + 2).toNat + 1 ∧ (s.pc + 2).toNat + 1 < s.i.toNat + bs.length) →
        second = s.byte ((s.pc + 2).toNat + 1))

/-! ### Display -/

/-- 43_display.md R170. -/
def Obligations.ClearTurnsEveryPixelOff : Prop :=
  EncodedBy 0xFFFF 0x00E0 (· = .cls) ∧ ∀ s : State, CompletesWith (exec .cls s) fun t =>
    (∀ row < 32, ∀ col < 64, Display.pixel t.disp row col = false) ∧ t.pc = s.pc + 2 ∧ t.reg VF = s.reg VF ∧
      RaisesNothing s t ∧
      ((∀ row < 32, ∀ col < 64, Display.pixel s.disp row col = false) → ChangesOnly [.pc] s t)

/-- 43_display.md section 1 and section 2 (Dxyn, one parallel XOR; bit order D15, log 10; n = 0 D14): the loop of the draw
turns over exactly the pixels the sprite covers, wrapped, and VF says whether one of them was on before. -/
def Obligations.TheDrawIsOneParallelXor : Prop :=
  ∀ (x y : Reg) (n : Fin 16) (s : State), n.val = 0 ∨ s.i.toNat + n.val ≤ 0x1000 →
    CompletesWith (exec (.drw x y n) s) fun t =>
      (∀ row < 32, ∀ col < 64,
        (spriteCovers s x y n.val row col → Display.pixel t.disp row col = !Display.pixel s.disp row col) ∧
          (¬spriteCovers s x y n.val row col → Display.pixel t.disp row col = Display.pixel s.disp row col)) ∧
        ((∃ row < 32, ∃ col < 64, spriteCovers s x y n.val row col ∧ Display.pixel s.disp row col = true) →
          t.reg VF = 1) ∧
        ((∀ row < 32, ∀ col < 64, spriteCovers s x y n.val row col → Display.pixel s.disp row col = false) →
          t.reg VF = 0) ∧
        t.pc = s.pc + 2

/-- 43_display.md section 2 (idempotent pair): the same draw again, on the display the first one left, gives the first
display back; it reports a collision exactly when the sprite covers a pixel that was off before the first draw
(log 14: the section's own last claim is too strong). Which pixels the sprite covers rests on D15 (log 10), and the
case n = 0 on D14 (log 11). -/
def Obligations.DrawingTwiceRestoresTheDisplay : Prop :=
  ∀ (x y : Reg) (n : Fin 16) (s : State), n.val = 0 ∨ s.i.toNat + n.val ≤ 0x1000 →
    CompletesWith (exec (.drw x y n) s) fun t =>
      ∀ u : State, u.disp = t.disp → u.i = s.i → u.reg x = s.reg x → u.reg y = s.reg y →
        (∀ a, u.byte a = s.byte a) →
        CompletesWith (exec (.drw x y n) u) fun w =>
          w.disp = s.disp ∧
            (w.reg VF = 1 ↔
              ∃ row < 32, ∃ col < 64, spriteCovers s x y n.val row col ∧ Display.pixel s.disp row col = false)

/-- 43_display.md section 2 (idempotent pair), its last claim taken at its word: "The second draw reports VF = 1 if the
sprite has at least one 1 bit", whatever the display held. EXPECTED TO FAIL: a sprite on a pixel that is already on
turns it off and then on again, and the second draw reports no collision (log 14). -/
def Obligations.TheSecondDrawCollidesWhateverTheDisplayHeld : Prop :=
  ∀ (x y : Reg) (n : Fin 16) (s t w : State), x ≠ VF → y ≠ VF → s.i.toNat + n.val ≤ 0x1000 →
    (∃ r < n.val, ∃ c < 8, (s.byte (s.i.toNat + r)).getLsbD c = true) →
    exec (.drw x y n) s = .next t → exec (.drw x y n) t = .next w → w.reg VF = 1

/-! ### Keypad and timers -/

/-- 44_keys_timers.md section 1 (Ex9E, ExA1): a register value above 0xF names no key (D17). -/
def Obligations.KeySkipsFollowTheKeyState : Prop :=
  ∀ (x : Reg) (s : State),
    (∀ k : Key, (s.reg x).toNat = k.val →
      (CompletesWith (exec (.skp x) s) fun t =>
        t.pc.toNat = (s.pc.toNat + if s.input.keyDown[k.val] then 4 else 2) % 65536) ∧
        CompletesWith (exec (.sknp x) s) fun t =>
          t.pc.toNat = (s.pc.toNat + if s.input.keyDown[k.val] then 2 else 4) % 65536) ∧
      (0xF < (s.reg x).toNat →
        (CompletesWith (exec (.skp x) s) fun t => t.pc = s.pc + 2) ∧
          CompletesWith (exec (.sknp x) s) fun t => t.pc = s.pc + 4)

/-- 44_keys_timers.md R194, and section 2 (Fx07). -/
def Obligations.DelayTimerIsReadAndSet : Prop :=
  EncodedBy 0xF0FF 0xF015 (∃ x, · = .ldDtReg x) ∧ EncodedBy 0xF0FF 0xF007 (∃ x, · = .ldRegDt x) ∧
    ∀ (x : Reg) (s : State),
    (CompletesWith (exec (.ldDtReg x) s) fun t =>
      t.dt = s.reg x ∧ t.pc = s.pc + 2 ∧ t.reg VF = s.reg VF ∧ RaisesNothing s t ∧
        (s.reg x = 0 → ∀ n, (tickMany n t).dt = 0)) ∧
      CompletesWith (exec (.ldRegDt x) s) fun t =>
        t.reg x = s.dt ∧ t.dt = s.dt ∧ t.pc = s.pc + 2 ∧ (x ≠ VF → t.reg VF = s.reg VF) ∧ RaisesNothing s t

/-- 44_keys_timers.md R195: ST is set and exported, and no instruction reads it back: every other instruction does
the same whatever ST holds, and leaves it. -/
def Obligations.SoundTimerIsSetAndNeverReadBack : Prop :=
  EncodedBy 0xF0FF 0xF018 (∃ x, · = .ldStReg x) ∧
    (∀ (x : Reg) (s : State), CompletesWith (exec (.ldStReg x) s) fun t =>
      t.st = s.reg x ∧ t.output.soundTimer = s.reg x ∧ t.pc = s.pc + 2 ∧ t.reg VF = s.reg VF ∧ RaisesNothing s t) ∧
    ∀ (i : Instr) (s : State) (b : Byte), (∀ x, i ≠ .ldStReg x) →
      exec i (s.setSt b) = mapNext (State.setSt b) (exec i s)

/-- 60_exceptions.md section 1 (the inputs of a step, D18, D27): an instruction does the same with any two inputs, but
for the key states in Ex9E and ExA1 and the random byte in Cxkk; no instruction looks at the key-press event. -/
def Obligations.InputsAreReadOnlyByTheirInstructions : Prop :=
  ∀ (i : Instr) (n : Nat) (a b : StepInput) (s : State),
    ((∀ x, i ≠ .skp x ∧ i ≠ .sknp x) ∨ a.keyDown = b.keyDown) → ((∀ x kk, i ≠ .rnd x kk) ∨ a.randByte = b.randByte) →
    mapNext State.endTurn (exec i (s.offer { ticks := n, input := a })) =
      mapNext State.endTurn (exec i (s.offer { ticks := n, input := b }))

/-- 44_keys_timers.md section 2 (Fx0A, D18): the wait is entered for V[x], PC stays, and a key press given with this very
step is not consumed. -/
def Obligations.KeyWaitIsEnteredAndTakesNoEvent : Prop :=
  ∀ (x : Reg) (s : State), CompletesWith (exec (.ldRegKey x) s) fun t =>
    t.run = .awaitingKey ∧ t.kwTarget = x ∧ t.pc = s.pc ∧ ∀ r, t.reg r = s.reg r

/-! ### Frames (00_scope.md section 5, "State a rule does not write is unchanged", D7, log 11) -/

/-- The frame of the control transfers: RET writes PC and SP, CALL writes PC, SP and the entry it pushes, the jumps and
skips write PC; RET and CALL when the stack admits them. -/
def Obligations.ControlTransfersChangeOnlyPcAndTheStack : Prop :=
  ∀ s t : State,
    (s.sp ≠ 0 → exec .ret s = .next t → ChangesOnly [.pc, .sp] s t) ∧
      (∀ nnn, s.sp ≠ 15 → exec (.call nnn) s = .next t →
        ChangesOnly [.pc, .sp, .stackEntry (s.sp + 1)] s t) ∧
      (∀ i : Instr, ((∃ nnn, i = .jp nnn ∨ i = .jpV0 nnn) ∨ (∃ x kk, i = .seImm x kk ∨ i = .sneImm x kk) ∨
        (∃ x y, i = .seReg x y ∨ i = .sneReg x y) ∨ ∃ x, i = .skp x ∨ i = .sknp x) →
        exec i s = .next t → ChangesOnly [.pc] s t)

/-- The frame of the instructions that write one register and no flag. -/
def Obligations.PlainRegisterWritesChangeOnlyTheirRegister : Prop :=
  ∀ (i : Instr) (x : Reg) (s t : State),
    ((∃ kk, i = .ldImm x kk ∨ i = .addImm x kk ∨ i = .rnd x kk) ∨
      (∃ y, i = .ldReg x y ∨ i = .or x y ∨ i = .and x y ∨ i = .xor x y) ∨ i = .ldRegDt x) →
    exec i s = .next t → ChangesOnly [.pc, .reg x] s t

/-- The frame of the instructions that write one register and the flag. -/
def Obligations.FlagWritingOperationsChangeOnlyTheirRegisterAndVf : Prop :=
  ∀ (i : Instr) (x y : Reg) (s t : State),
    (i = .add x y ∨ i = .sub x y ∨ i = .subn x y ∨ i = .shr x y ∨ i = .shl x y) →
    exec i s = .next t → ChangesOnly [.pc, .reg x, .reg VF] s t

/-- The frame of the instructions that write I, a timer, or the key wait. -/
def Obligations.IndexTimerAndKeyWaitWritesChangeOnlyTheirs : Prop :=
  ∀ s t : State,
    (∀ nnn, exec (.ldI nnn) s = .next t → ChangesOnly [.pc, .index] s t) ∧
      ∀ x, (exec (.addI x) s = .next t → ChangesOnly [.pc, .index] s t) ∧
        (exec (.ldFont x) s = .next t → ChangesOnly [.pc, .index] s t) ∧
        (exec (.ldDtReg x) s = .next t → ChangesOnly [.pc, .dt] s t) ∧
        (exec (.ldStReg x) s = .next t → ChangesOnly [.pc, .st] s t) ∧
        (exec (.ldRegKey x) s = .next t → ChangesOnly [.run, .kwTarget] s t)

/-- The frame of the stores, when the range may be stored to: PC and the bytes I .. I+2 (Fx33) or I .. I+x (Fx55), the
address being the exact natural I (20_memory.md section 2). -/
def Obligations.StoresChangeOnlyTheirBytes : Prop :=
  ∀ (x : Reg) (s t : State), 0x200 ≤ s.i.toNat →
    (s.i.toNat + 2 ≤ 0xFFF → exec (.ldBcd x) s = .next t →
      ChangesOnly (.pc :: byteParts s.i.toNat 3) s t ∧
        ∀ a, ¬(s.i.toNat ≤ a ∧ a < s.i.toNat + 3) → t.byte a = s.byte a) ∧
      (s.i.toNat + x.val ≤ 0xFFF → exec (.storeRegs x) s = .next t →
        ChangesOnly (.pc :: byteParts s.i.toNat (x.val + 1)) s t ∧
          ∀ a, ¬(s.i.toNat ≤ a ∧ a < s.i.toNat + (x.val + 1)) → t.byte a = s.byte a)

/-- The frame of the register load, when the range may be read: PC and V[0] .. V[x]. -/
def Obligations.LoadRegistersChangesOnlyItsRegisters : Prop :=
  ∀ (x : Reg) (s t : State), s.i.toNat + x.val ≤ 0xFFF → exec (.loadRegs x) s = .next t →
    ChangesOnly (.pc :: regParts x) s t

/-- The frame of the display instructions: PC and the display, and VF for a draw whose source may be read. -/
def Obligations.DisplayInstructionsChangeOnlyTheDisplayAndVf : Prop :=
  ∀ s t : State,
    (exec .cls s = .next t → ChangesOnly [.pc, .display] s t) ∧
      ∀ (x y : Reg) (n : Fin 16), n.val = 0 ∨ s.i.toNat + n.val ≤ 0x1000 → exec (.drw x y n) s = .next t →
        ChangesOnly [.pc, .display, .reg VF] s t

/-! ### The whole machine -/

/-- 60_exceptions.md section 2 (fault entry, D4; priority): an instruction that halts the machine changes RUN and FAULT
only, and the latch holds a lawful record of this PC and this word, with the one cause of the instruction's row. -/
def Obligations.FaultsArePrecise : Prop :=
  ∀ (i : Instr) (s t : State), exec i s = .next t → s.run ≠ .halted → t.run = .halted →
    ChangesOnly [.run, .fault] s t ∧
      ∃ r, t.fault = some r ∧ r.pc = s.pc ∧ r.word = some (encode i) ∧ r.Lawful ∧ RaisedBy r.cause i

/-- 20_memory.md section 1 (writers of memory; the reserved region, D19, log 9), 10_state.md sections 3, 5 and 7: over a
whole step, in every run state, memory, the display, I and the call stack change only through their own
instructions, and 0x000-0x1FF never changes. -/
def Obligations.OnlyTheirInstructionsChangeMemoryDisplayIndexAndStack : Prop :=
  ∀ s t : State, step s = .next t →
    (∀ a, a ≤ 0x1FF → t.byte a = s.byte a) ∧
      ((∃ a, t.byte a ≠ s.byte a) → s.run = .running ∧ ∃ x, AtPc s (.ldBcd x) ∨ AtPc s (.storeRegs x)) ∧
      (t.disp ≠ s.disp → s.run = .running ∧ (AtPc s .cls ∨ ∃ x y n, AtPc s (.drw x y n))) ∧
      (t.i ≠ s.i → s.run = .running ∧ ((∃ nnn, AtPc s (.ldI nnn)) ∨ ∃ x, AtPc s (.addI x) ∨ AtPc s (.ldFont x))) ∧
      (t.sp ≠ s.sp → s.run = .running ∧ (AtPc s .ret ∨ ∃ nnn, AtPc s (.call nnn))) ∧
      (t.stack ≠ s.stack → s.run = .running ∧ ∃ nnn, AtPc s (.call nnn))

/-- 40_control_flow.md section 2 (the self-jump) and 60_exceptions.md section 6: a jump to itself runs for ever without a
fault, and only the timers move. -/
def Obligations.ASelfJumpRunsForEver : Prop :=
  ∀ (nnn : Addr12) (s : State), s.run = .running → s.pc.toNat = nnn.toNat → AtPc s (.jp nnn) →
    ∀ k : Nat, SafeRun k s ∧
      CompletesWith (stepsFrom k s) fun t =>
        ∃ n, t = { tickMany n s with env := s.env.drop k, turns := s.turns + k }

/-- 10_state.md section 13: the invariant holds of the state after reset. That STACK is 0 there is D24, and that the latch
is empty is D2 (log 11). -/
def Obligations.TheInvariantHoldsAtReset : Prop := Inv State.reset

/-- 10_state.md sections 3, 5, 8 and 9, 20_memory.md section 1 and 60_exceptions.md section 2: every step keeps the
invariant: memory in its canonical form, the reserved region intact, PC and the return addresses in their bounds,
STACK[0] never written, and a latched lawful fault exactly when halted. That the reserved region is not stored to is
D19 (log 9); Halted and its latch are D2, the latch's contents D3, that a fault changes nothing else D4, and the 0 that
STACK[0] keeps D24 (log 11). -/
def Obligations.EveryStepKeepsTheInvariant : Prop :=
  ∀ s t : State, Inv s → step s = .next t → Inv t

/-! ### The fault registers -/

/-- 10_state.md section 10 (the FAULT rows: legal values and reset values) and section 9 (the latch): the registers the
environment reads. A fault shows its code, PC, word and address; the codes and widths are D3 (log 11), and the
protected addresses D19 (log 9). With nothing latched they hold their reset values, FAULT.pc 0 among them; wherever
the invariant holds they hold legal values, and FAULT.pc is the PC whenever a cause stands. -/
def Obligations.FaultRegistersShowTheLatchAndHoldLegalValues : Prop :=
  (∀ (c : FaultCause) (w : Option Word) (a : Option Nat) (s : State),
    (s.raise c w a).output.faultRegisters =
      { cause := match c with
          | .decode => 1
          | .stackOverflow => 2
          | .stackUnderflow => 3
          | .address => 4
        pc := s.pc, word := w, addr := a }) ∧
    (∀ s : State, s.fault = none →
      s.output.faultRegisters = { cause := 0, pc := 0, word := none, addr := none }) ∧
    ∀ s : State, Inv s →
      s.output.faultRegisters.cause.toNat ≤ 4 ∧ (s.output.faultRegisters.cause ≠ 0 ↔ s.run = .halted) ∧
        (s.run = .halted → s.output.faultRegisters.pc = s.pc) ∧
        ∀ a, s.output.faultRegisters.addr = some a → a > 0xFFF ∨ a ≤ 0x1FF

/-! ### The end of a run -/

/-- 60_exceptions.md section 6 (the self-jump) and 40_control_flow.md section 2 (1nnn, Bnnn): in Running the instructions
that change nothing are exactly the jumps to themselves, 1nnn with nnn = PC and Bnnn with nnn + V[0] = PC. That the
second belongs there is deduced from Bnnn's own rule; the section's list does not name it (log 15). That a faulting
instruction changes RUN rests on D2 (log 11). -/
def Obligations.TheInstructionsThatChangeNothingAreTheSelfJumps : Prop :=
  ∀ (i : Instr) (s : State), s.run = .running →
    (exec i s = .next s ↔
      (∃ nnn : Addr12, i = .jp nnn ∧ s.pc.toNat = nnn.toNat) ∨
        ∃ nnn : Addr12, i = .jpV0 nnn ∧ s.pc.toNat = nnn.toNat + (s.reg 0).toNat)
end

