-- ==== Sys2Proof/Laws/Decode.lean ====
section
/-! SUPPORT. The laws of fields and formats: what each field and each format is as a number, a word is its fields put
together, a row's mask picks out its fixed fields, and what the decoder can answer. -/

namespace Sys2Proof

/-! ### Formats and fields as numbers -/

theorem formXYN_toNat (op : BitVec 4) (x y : Reg) (n : BitVec 4) :
    (formXYN op x y n).toNat = op.toNat * 4096 + x.val * 256 + y.val * 16 + n.toNat := by
  have hx := x.isLt
  have hy := y.isLt
  have hn := n.isLt
  simp only [formXYN, BitVec.toNat_append, BitVec.toNat_ofFin]
  rw [← Nat.shiftLeft_add_eq_or_of_lt (by omega), ← Nat.shiftLeft_add_eq_or_of_lt (by omega),
    ← Nat.shiftLeft_add_eq_or_of_lt (by omega)]
  simp only [Nat.shiftLeft_eq]
  omega

theorem formXK_toNat (op : BitVec 4) (x : Reg) (kk : Byte) :
    (formXK op x kk).toNat = op.toNat * 4096 + x.val * 256 + kk.toNat := by
  have hx := x.isLt
  have hk := kk.isLt
  simp only [formXK, BitVec.toNat_append, BitVec.toNat_ofFin]
  rw [← Nat.shiftLeft_add_eq_or_of_lt (by omega), ← Nat.shiftLeft_add_eq_or_of_lt (by omega)]
  simp only [Nat.shiftLeft_eq]
  omega

theorem formA_toNat (op : BitVec 4) (nnn : Addr12) : (formA op nnn).toNat = op.toNat * 4096 + nnn.toNat := by
  simp only [formA, BitVec.toNat_append]
  rw [← Nat.shiftLeft_add_eq_or_of_lt (by omega)]
  simp only [Nat.shiftLeft_eq]

theorem fieldOp_toNat (w : Word) : (fieldOp w).toNat = w.toNat / 4096 := by
  simp only [fieldOp, BitVec.extractLsb'_toNat, Nat.shiftRight_eq_div_pow]
  omega

theorem fieldN_toNat (w : Word) : (fieldN w).toNat = w.toNat % 16 := by
  simp only [fieldN, BitVec.extractLsb'_toNat, Nat.shiftRight_eq_div_pow]
  omega

theorem fieldKk_toNat (w : Word) : (fieldKk w).toNat = w.toNat % 256 := by
  simp only [fieldKk, BitVec.extractLsb'_toNat, Nat.shiftRight_eq_div_pow]
  omega

theorem fieldNnn_toNat (w : Word) : (fieldNnn w).toNat = w.toNat % 4096 := by
  simp only [fieldNnn, BitVec.extractLsb'_toNat, Nat.shiftRight_eq_div_pow]
  omega

theorem fieldX_val (w : Word) : (fieldX w).val = w.toNat / 256 % 16 := by
  simp only [fieldX, BitVec.val_toFin, BitVec.extractLsb'_toNat, Nat.shiftRight_eq_div_pow]

theorem fieldY_val (w : Word) : (fieldY w).val = w.toNat / 16 % 16 := by
  simp only [fieldY, BitVec.val_toFin, BitVec.extractLsb'_toNat, Nat.shiftRight_eq_div_pow]

/-! ### A word is its fields put together -/

theorem formA_fields (w : Word) : formA (fieldOp w) (fieldNnn w) = w := by
  apply BitVec.eq_of_toNat_eq
  rw [formA_toNat, fieldOp_toNat, fieldNnn_toNat]
  omega

theorem formXK_fields (w : Word) : formXK (fieldOp w) (fieldX w) (fieldKk w) = w := by
  have := w.isLt
  apply BitVec.eq_of_toNat_eq
  rw [formXK_toNat, fieldOp_toNat, fieldX_val, fieldKk_toNat]
  omega

theorem formXYN_fields (w : Word) : formXYN (fieldOp w) (fieldX w) (fieldY w) (fieldN w) = w := by
  have := w.isLt
  apply BitVec.eq_of_toNat_eq
  rw [formXYN_toNat, fieldOp_toNat, fieldX_val, fieldY_val, fieldN_toNat]
  omega

/-! ### The fields of a format -/

@[simp] theorem fieldOp_formA (op : BitVec 4) (nnn : Addr12) : fieldOp (formA op nnn) = op := by
  apply BitVec.eq_of_toNat_eq
  rw [fieldOp_toNat, formA_toNat]
  omega

@[simp] theorem fieldNnn_formA (op : BitVec 4) (nnn : Addr12) : fieldNnn (formA op nnn) = nnn := by
  apply BitVec.eq_of_toNat_eq
  rw [fieldNnn_toNat, formA_toNat]
  omega

@[simp] theorem fieldOp_formXK (op : BitVec 4) (x : Reg) (kk : Byte) : fieldOp (formXK op x kk) = op := by
  have := x.isLt
  apply BitVec.eq_of_toNat_eq
  rw [fieldOp_toNat, formXK_toNat]
  omega

@[simp] theorem fieldX_formXK (op : BitVec 4) (x : Reg) (kk : Byte) : fieldX (formXK op x kk) = x := by
  have := x.isLt
  apply Fin.ext
  rw [fieldX_val, formXK_toNat]
  omega

@[simp] theorem fieldKk_formXK (op : BitVec 4) (x : Reg) (kk : Byte) : fieldKk (formXK op x kk) = kk := by
  apply BitVec.eq_of_toNat_eq
  rw [fieldKk_toNat, formXK_toNat]
  omega

@[simp] theorem fieldOp_formXYN (op : BitVec 4) (x y : Reg) (n : BitVec 4) : fieldOp (formXYN op x y n) = op := by
  have := x.isLt
  have := y.isLt
  apply BitVec.eq_of_toNat_eq
  rw [fieldOp_toNat, formXYN_toNat]
  omega

@[simp] theorem fieldX_formXYN (op : BitVec 4) (x y : Reg) (n : BitVec 4) : fieldX (formXYN op x y n) = x := by
  have := x.isLt
  have := y.isLt
  apply Fin.ext
  rw [fieldX_val, formXYN_toNat]
  omega

@[simp] theorem fieldY_formXYN (op : BitVec 4) (x y : Reg) (n : BitVec 4) : fieldY (formXYN op x y n) = y := by
  have := y.isLt
  apply Fin.ext
  rw [fieldY_val, formXYN_toNat]
  omega

@[simp] theorem fieldN_formXYN (op : BitVec 4) (x y : Reg) (n : BitVec 4) : fieldN (formXYN op x y n) = n := by
  apply BitVec.eq_of_toNat_eq
  rw [fieldN_toNat, formXYN_toNat]
  omega

/-! ### A row's mask picks out its fixed fields -/

theorem formA_masked (op : BitVec 4) (nnn : Addr12) : formA op nnn &&& 0xF000 = formA op 0 := by
  show (op ++ nnn) &&& (BitVec.allOnes 4 ++ 0#12) = op ++ 0#12
  rw [BitVec.and_append, BitVec.and_allOnes, BitVec.and_zero]

theorem formXK_masked (op : BitVec 4) (x : Reg) (kk : Byte) : formXK op x kk &&& 0xF0FF = formXK op 0 kk := by
  show (op ++ BitVec.ofFin (w := 4) x ++ kk) &&& (BitVec.allOnes 4 ++ 0#4 ++ BitVec.allOnes 8) = op ++ 0#4 ++ kk
  rw [BitVec.and_append, BitVec.and_append, BitVec.and_allOnes, BitVec.and_allOnes, BitVec.and_zero]

theorem formXYN_masked (op : BitVec 4) (x y : Reg) (n : BitVec 4) :
    formXYN op x y n &&& 0xF00F = formXYN op 0 0 n := by
  show (op ++ BitVec.ofFin (w := 4) x ++ BitVec.ofFin (w := 4) y ++ n) &&&
    (BitVec.allOnes 4 ++ 0#4 ++ 0#4 ++ BitVec.allOnes 4) = op ++ 0#4 ++ 0#4 ++ n
  rw [BitVec.and_append, BitVec.and_append, BitVec.and_append, BitVec.and_allOnes, BitVec.and_allOnes,
    BitVec.and_zero, BitVec.and_zero]

/-- A word matches a row of format A exactly when its op is the row's. -/
theorem masked_A_iff (w : Word) (op : BitVec 4) : w &&& 0xF000 = formA op 0 ↔ fieldOp w = op := by
  conv_lhs => rw [← formA_fields w, formA_masked]
  constructor
  · intro h
    simpa using congrArg fieldOp h
  · rintro rfl
    rfl

/-- A word matches a row of format XF exactly when its op and kk are the row's. -/
theorem masked_XF_iff (w : Word) (op : BitVec 4) (kk : Byte) :
    w &&& 0xF0FF = formXK op 0 kk ↔ fieldOp w = op ∧ fieldKk w = kk := by
  conv_lhs => rw [← formXK_fields w, formXK_masked]
  constructor
  · intro h
    exact ⟨by simpa using congrArg fieldOp h, by simpa using congrArg fieldKk h⟩
  · rintro ⟨rfl, rfl⟩
    rfl

/-- A word matches a row of format XYN with a minor opcode exactly when its op and n are the row's. -/
theorem masked_XYN_iff (w : Word) (op n : BitVec 4) :
    w &&& 0xF00F = formXYN op 0 0 n ↔ fieldOp w = op ∧ fieldN w = n := by
  conv_lhs => rw [← formXYN_fields w, formXYN_masked]
  constructor
  · intro h
    exact ⟨by simpa using congrArg fieldOp h, by simpa using congrArg fieldN h⟩
  · rintro ⟨rfl, rfl⟩
    rfl

/-! ### Bytes and words -/

@[simp] theorem wordOfBytes_bytes (w : Word) : wordOfBytes (firstByte w) (secondByte w) = w := by
  apply BitVec.eq_of_toNat_eq
  simp only [wordOfBytes, firstByte, secondByte, BitVec.toNat_append, BitVec.extractLsb'_toNat,
    Nat.shiftRight_eq_div_pow]
  rw [← Nat.shiftLeft_add_eq_or_of_lt (by omega)]
  simp only [Nat.shiftLeft_eq]
  omega

theorem wordOfBytes_toNat (a b : Byte) : (wordOfBytes a b).toNat = a.toNat * 256 + b.toNat := by
  simp only [wordOfBytes, BitVec.toNat_append]
  rw [← Nat.shiftLeft_add_eq_or_of_lt (by omega)]
  simp only [Nat.shiftLeft_eq]

/-- The byte decoder on two bytes and more is the word decoder. -/
theorem decode_cons_cons (a b : Byte) (rest : List Byte) :
    decode (a :: b :: rest) =
      match decodeWord (wordOfBytes a b) with
      | some i => .ok (i, rest)
      | none => .error (.illegalWord (wordOfBytes a b)) := rfl

theorem decode_pair_ok_iff {a b : Byte} {i : Instr} {rest : List Byte} :
    decode [a, b] = .ok (i, rest) ↔ decodeWord (wordOfBytes a b) = some i ∧ rest = [] := by
  rw [decode_cons_cons]
  cases decodeWord (wordOfBytes a b) <;> simp [eq_comm]

end Sys2Proof
end

