-- ==== Sys2Proof/Laws/Memory.lean ====
section
/-! SUPPORT. The laws of memory: a read after a write, the canonical form, equal memories are equal data, and runs of
bytes. -/

namespace Sys2Proof.Machine

/-! ### One byte -/

theorem read_of_absent {m : Memory} {a : Nat} (h : ∀ c ∈ m, c.1 ≠ a) : Memory.read m a = resetByte a := by
  induction m with
  | nil => rfl
  | cons c m ih =>
    obtain ⟨k, b⟩ := c
    have hk : k ≠ a := h (k, b) (by simp)
    simp [Memory.read, hk, ih (fun c hc => h c (by simp [hc]))]

theorem read_erase_same (m : Memory) (a : Nat) : Memory.read (Memory.erase a m) a = resetByte a :=
  read_of_absent (by simp [Memory.erase])

theorem read_erase_other (m : Memory) {a a' : Nat} (h : a' ≠ a) :
    Memory.read (Memory.erase a m) a' = Memory.read m a' := by
  induction m with
  | nil => rfl
  | cons c m ih =>
    obtain ⟨k, b⟩ := c
    by_cases hk : k = a
    · simp only [Memory.erase, hk, List.filter_cons, bne_self_eq_false, Bool.false_eq_true, if_false]
      simpa [Memory.erase, Memory.read, Ne.symm h] using ih
    · simp only [Memory.erase, List.filter_cons, bne_iff_ne, ne_eq, hk, not_false_eq_true, if_true, Memory.read]
      split
      · rfl
      · simpa [Memory.erase] using ih

theorem read_place_same (m : Memory) {a : Nat} (b : Byte) (h : ∀ c ∈ m, c.1 ≠ a) :
    Memory.read (Memory.place a b m) a = b := by
  induction m with
  | nil => simp [Memory.place, Memory.read]
  | cons c m ih =>
    obtain ⟨k, v⟩ := c
    have hk : k ≠ a := h (k, v) (by simp)
    have := ih (fun c hc => h c (by simp [hc]))
    simp only [Memory.place]
    split <;> simp [Memory.read, hk, this]

theorem read_place_other (m : Memory) {a a' : Nat} (b : Byte) (h : a' ≠ a) :
    Memory.read (Memory.place a b m) a' = Memory.read m a' := by
  induction m with
  | nil => simp [Memory.place, Memory.read, Ne.symm h]
  | cons c m ih =>
    obtain ⟨k, v⟩ := c
    simp only [Memory.place]
    split <;> simp [Memory.read, Ne.symm h, ih]

theorem erase_absent (m : Memory) (a : Nat) : ∀ c ∈ Memory.erase a m, c.1 ≠ a := by
  simp [Memory.erase]

/-- A read after a write to the same address gives the byte written. -/
@[simp] theorem read_write_same (m : Memory) (a : Nat) (b : Byte) : Memory.read (Memory.write a b m) a = b := by
  unfold Memory.write
  split
  · next h => rw [read_erase_same, h]
  · exact read_place_same _ b (erase_absent m a)

/-- A write leaves every other address alone. -/
theorem read_write_other (m : Memory) {a a' : Nat} (b : Byte) (h : a' ≠ a) :
    Memory.read (Memory.write a b m) a' = Memory.read m a' := by
  unfold Memory.write
  split
  · exact read_erase_other m h
  · rw [read_place_other _ b h, read_erase_other m h]

theorem read_write (m : Memory) (a a' : Nat) (b : Byte) :
    Memory.read (Memory.write a b m) a' = if a' = a then b else Memory.read m a' := by
  split
  · next h => rw [h, read_write_same]
  · next h => exact read_write_other m b h

/-! ### The canonical form -/

theorem mem_place {m : Memory} {a : Nat} {b : Byte} {c : Host.Cell} :
    c ∈ Memory.place a b m ↔ c = (a, b) ∨ c ∈ m := by
  induction m with
  | nil => simp [Memory.place]
  | cons d m ih =>
    simp only [Memory.place]
    split
    · simp
    · simp only [List.mem_cons, ih]
      tauto

theorem erase_wf {m : Memory} (h : Memory.wf m) (a : Nat) : Memory.wf (Memory.erase a m) :=
  ⟨h.1.filter _, fun c hc => h.2 c (List.mem_of_mem_filter hc)⟩

theorem place_pairwise {m : Memory} (h : m.Pairwise (fun c d => c.1 < d.1)) {a : Nat} (b : Byte)
    (ha : ∀ c ∈ m, c.1 ≠ a) : (Memory.place a b m).Pairwise (fun c d => c.1 < d.1) := by
  induction m with
  | nil => simp [Memory.place]
  | cons d m ih =>
    obtain ⟨k, v⟩ := d
    have hk : k ≠ a := ha (k, v) (by simp)
    rw [List.pairwise_cons] at h
    simp only [Memory.place]
    split
    · next hlt =>
      refine List.pairwise_cons.mpr ⟨?_, List.pairwise_cons.mpr h⟩
      intro c hc
      rcases List.mem_cons.mp hc with rfl | hc
      · exact hlt
      · exact Nat.lt_trans hlt (h.1 c hc)
    · next hlt =>
      refine List.pairwise_cons.mpr ⟨?_, ih h.2 (fun c hc => ha c (by simp [hc]))⟩
      intro c hc
      rcases mem_place.mp hc with rfl | hc
      · show k < a
        omega
      · exact h.1 c hc

/-- A write inside 0x000-0xFFF keeps the canonical form. -/
theorem write_wf {m : Memory} (h : Memory.wf m) {a : Nat} (ha : a ≤ 0xFFF) (b : Byte) :
    Memory.wf (Memory.write a b m) := by
  unfold Memory.write
  split
  · exact erase_wf h a
  · next hb =>
    refine ⟨place_pairwise (erase_wf h a).1 b (erase_absent m a), fun c hc => ?_⟩
    rcases mem_place.mp hc with rfl | hc
    · exact ⟨ha, hb⟩
    · exact (erase_wf h a).2 c hc

theorem nil_wf : Memory.wf [] := by decide

theorem reset_mem_wf : Memory.wf State.reset.mem := nil_wf

theorem read_of_lt_all {m : Memory} {a : Nat} (h : ∀ c ∈ m, a < c.1) : Memory.read m a = resetByte a :=
  read_of_absent (fun c hc => (Nat.ne_of_gt (h c hc)))

/-- Two memories in canonical form that read alike everywhere are equal data. -/
theorem wf_ext {m m' : Memory} (h : Memory.wf m) (h' : Memory.wf m')
    (e : ∀ a, Memory.read m a = Memory.read m' a) : m = m' := by
  induction m generalizing m' with
  | nil =>
    cases m' with
    | nil => rfl
    | cons d m' =>
      have := e d.1
      simp only [Memory.read] at this
      exact absurd this.symm (by simpa [Memory.read] using (h'.2 d (by simp)).2)
  | cons c m ih =>
    obtain ⟨k, b⟩ := c
    cases m' with
    | nil =>
      have := e k
      simp only [Memory.read, if_true] at this
      exact absurd this (h.2 (k, b) (by simp)).2
    | cons d m' =>
      obtain ⟨k', b'⟩ := d
      have p := List.pairwise_cons.mp h.1
      have p' := List.pairwise_cons.mp h'.1
      have hkk : k = k' := by
        rcases Nat.lt_trichotomy k k' with hlt | heq | hlt
        · have hr := e k
          rw [read_of_lt_all (m := (k', b') :: m') (a := k) ?_] at hr
          · simp only [Memory.read, if_true] at hr
            exact absurd hr (h.2 (k, b) (by simp)).2
          · intro c hc
            rcases List.mem_cons.mp hc with rfl | hc
            · exact hlt
            · exact Nat.lt_trans hlt (p'.1 c hc)
        · exact heq
        · have hr := e k'
          rw [read_of_lt_all (m := (k, b) :: m) (a := k') ?_] at hr
          · simp only [Memory.read, if_true] at hr
            exact absurd hr.symm (h'.2 (k', b') (by simp)).2
          · intro c hc
            rcases List.mem_cons.mp hc with rfl | hc
            · exact hlt
            · exact Nat.lt_trans hlt (p.1 c hc)
      subst hkk
      have hb : b = b' := by simpa [Memory.read] using e k
      subst hb
      congr 1
      refine ih ⟨p.2, fun c hc => h.2 c (by simp [hc])⟩ ⟨p'.2, fun c hc => h'.2 c (by simp [hc])⟩ (fun a => ?_)
      by_cases hka : k = a
      · subst hka
        rw [read_of_lt_all p.1, read_of_lt_all p'.1]
      · simpa [Memory.read, hka] using e a

/-! ### Runs of bytes -/

/-- What a run of written bytes reads as, everywhere. -/
theorem read_writeBytes (bs : List Byte) (a : Nat) (m : Memory) (q : Nat) :
    Memory.read (Memory.writeBytes a bs m) q =
      if h : a ≤ q ∧ q < a + bs.length then bs[q - a]'(by omega) else Memory.read m q := by
  induction bs generalizing a m with
  | nil =>
    have : ¬(a ≤ q ∧ q < a + ([] : List Byte).length) := by simp
    simp only [Memory.writeBytes, dif_neg this]
  | cons b bs ih =>
    simp only [Memory.writeBytes, ih, read_write, List.length_cons]
    by_cases h1 : a + 1 ≤ q ∧ q < a + 1 + bs.length
    · have h2 : a ≤ q ∧ q < a + (bs.length + 1) := by omega
      rw [dif_pos h1, dif_pos h2, List.getElem_cons]
      have h3 : ¬ q - a = 0 := by omega
      simp only [h3, dif_neg, not_false_eq_true]
      congr 1
    · rw [dif_neg h1]
      by_cases h3 : q = a
      · subst h3
        simp
      · have h2 : ¬(a ≤ q ∧ q < a + (bs.length + 1)) := by omega
        rw [dif_neg h2, if_neg h3]

/-- A run of bytes written inside 0x000-0xFFF keeps the canonical form. -/
theorem writeBytes_wf (bs : List Byte) {a : Nat} {m : Memory} (h : Memory.wf m) (ha : a + bs.length ≤ 0x1000) :
    Memory.wf (Memory.writeBytes a bs m) := by
  induction bs generalizing a m with
  | nil => exact h
  | cons b bs ih =>
    simp only [List.length_cons] at ha
    exact ih (write_wf h (by omega) b) (by omega)

@[simp] theorem readBytes_length (m : Memory) (a len : Nat) : (Memory.readBytes m a len).length = len := by
  simp [Memory.readBytes]

@[simp] theorem readBytes_getElem (m : Memory) (a len k : Nat) (h : k < (Memory.readBytes m a len).length) :
    (Memory.readBytes m a len)[k] = Memory.read m (a + k) := by
  simp [Memory.readBytes]

end Sys2Proof.Machine
end

