-- ==== Sys2Proof/Laws/State.lean ====
section
/-! SUPPORT. What each state update does to each field, one lemma per field per update, all true by unfolding, so that
no later proof unfolds a record update. -/

namespace Sys2Proof.Machine

/-! ### setReg -/

@[simp] theorem setReg_mem (r : Reg) (b : Byte) (s : State) : (State.setReg r b s).mem = s.mem := rfl
@[simp] theorem setReg_i (r : Reg) (b : Byte) (s : State) : (State.setReg r b s).i = s.i := rfl
@[simp] theorem setReg_pc (r : Reg) (b : Byte) (s : State) : (State.setReg r b s).pc = s.pc := rfl
@[simp] theorem setReg_stack (r : Reg) (b : Byte) (s : State) : (State.setReg r b s).stack = s.stack := rfl
@[simp] theorem setReg_sp (r : Reg) (b : Byte) (s : State) : (State.setReg r b s).sp = s.sp := rfl
@[simp] theorem setReg_dt (r : Reg) (b : Byte) (s : State) : (State.setReg r b s).dt = s.dt := rfl
@[simp] theorem setReg_st (r : Reg) (b : Byte) (s : State) : (State.setReg r b s).st = s.st := rfl
@[simp] theorem setReg_disp (r : Reg) (b : Byte) (s : State) : (State.setReg r b s).disp = s.disp := rfl
@[simp] theorem setReg_run (r : Reg) (b : Byte) (s : State) : (State.setReg r b s).run = s.run := rfl
@[simp] theorem setReg_kwTarget (r : Reg) (b : Byte) (s : State) : (State.setReg r b s).kwTarget = s.kwTarget := rfl
@[simp] theorem setReg_fault (r : Reg) (b : Byte) (s : State) : (State.setReg r b s).fault = s.fault := rfl
@[simp] theorem setReg_env (r : Reg) (b : Byte) (s : State) : (State.setReg r b s).env = s.env := rfl
@[simp] theorem setReg_turns (r : Reg) (b : Byte) (s : State) : (State.setReg r b s).turns = s.turns := rfl
@[simp] theorem setReg_byte (r : Reg) (b : Byte) (s : State) (q : Nat) : (State.setReg r b s).byte q = s.byte q := rfl
@[simp] theorem setReg_turn (r : Reg) (b : Byte) (s : State) : (State.setReg r b s).turn = s.turn := rfl
@[simp] theorem setReg_input (r : Reg) (b : Byte) (s : State) : (State.setReg r b s).input = s.input := rfl

/-! ### setRegs -/

@[simp] theorem setRegs_mem (f : Reg → Byte) (s : State) : (State.setRegs f s).mem = s.mem := rfl
@[simp] theorem setRegs_i (f : Reg → Byte) (s : State) : (State.setRegs f s).i = s.i := rfl
@[simp] theorem setRegs_pc (f : Reg → Byte) (s : State) : (State.setRegs f s).pc = s.pc := rfl
@[simp] theorem setRegs_stack (f : Reg → Byte) (s : State) : (State.setRegs f s).stack = s.stack := rfl
@[simp] theorem setRegs_sp (f : Reg → Byte) (s : State) : (State.setRegs f s).sp = s.sp := rfl
@[simp] theorem setRegs_dt (f : Reg → Byte) (s : State) : (State.setRegs f s).dt = s.dt := rfl
@[simp] theorem setRegs_st (f : Reg → Byte) (s : State) : (State.setRegs f s).st = s.st := rfl
@[simp] theorem setRegs_disp (f : Reg → Byte) (s : State) : (State.setRegs f s).disp = s.disp := rfl
@[simp] theorem setRegs_run (f : Reg → Byte) (s : State) : (State.setRegs f s).run = s.run := rfl
@[simp] theorem setRegs_kwTarget (f : Reg → Byte) (s : State) : (State.setRegs f s).kwTarget = s.kwTarget := rfl
@[simp] theorem setRegs_fault (f : Reg → Byte) (s : State) : (State.setRegs f s).fault = s.fault := rfl
@[simp] theorem setRegs_env (f : Reg → Byte) (s : State) : (State.setRegs f s).env = s.env := rfl
@[simp] theorem setRegs_turns (f : Reg → Byte) (s : State) : (State.setRegs f s).turns = s.turns := rfl
@[simp] theorem setRegs_byte (f : Reg → Byte) (s : State) (q : Nat) : (State.setRegs f s).byte q = s.byte q := rfl
@[simp] theorem setRegs_turn (f : Reg → Byte) (s : State) : (State.setRegs f s).turn = s.turn := rfl
@[simp] theorem setRegs_input (f : Reg → Byte) (s : State) : (State.setRegs f s).input = s.input := rfl

/-! ### setPc -/

@[simp] theorem setPc_mem (a : Word) (s : State) : (State.setPc a s).mem = s.mem := rfl
@[simp] theorem setPc_i (a : Word) (s : State) : (State.setPc a s).i = s.i := rfl
@[simp] theorem setPc_pc (a : Word) (s : State) : (State.setPc a s).pc = a := rfl
@[simp] theorem setPc_stack (a : Word) (s : State) : (State.setPc a s).stack = s.stack := rfl
@[simp] theorem setPc_sp (a : Word) (s : State) : (State.setPc a s).sp = s.sp := rfl
@[simp] theorem setPc_dt (a : Word) (s : State) : (State.setPc a s).dt = s.dt := rfl
@[simp] theorem setPc_st (a : Word) (s : State) : (State.setPc a s).st = s.st := rfl
@[simp] theorem setPc_disp (a : Word) (s : State) : (State.setPc a s).disp = s.disp := rfl
@[simp] theorem setPc_run (a : Word) (s : State) : (State.setPc a s).run = s.run := rfl
@[simp] theorem setPc_kwTarget (a : Word) (s : State) : (State.setPc a s).kwTarget = s.kwTarget := rfl
@[simp] theorem setPc_fault (a : Word) (s : State) : (State.setPc a s).fault = s.fault := rfl
@[simp] theorem setPc_env (a : Word) (s : State) : (State.setPc a s).env = s.env := rfl
@[simp] theorem setPc_turns (a : Word) (s : State) : (State.setPc a s).turns = s.turns := rfl
@[simp] theorem setPc_reg (a : Word) (s : State) (q : Reg) : (State.setPc a s).reg q = s.reg q := rfl
@[simp] theorem setPc_byte (a : Word) (s : State) (q : Nat) : (State.setPc a s).byte q = s.byte q := rfl
@[simp] theorem setPc_turn (a : Word) (s : State) : (State.setPc a s).turn = s.turn := rfl
@[simp] theorem setPc_input (a : Word) (s : State) : (State.setPc a s).input = s.input := rfl

/-! ### setI -/

@[simp] theorem setI_mem (a : Word) (s : State) : (State.setI a s).mem = s.mem := rfl
@[simp] theorem setI_i (a : Word) (s : State) : (State.setI a s).i = a := rfl
@[simp] theorem setI_pc (a : Word) (s : State) : (State.setI a s).pc = s.pc := rfl
@[simp] theorem setI_stack (a : Word) (s : State) : (State.setI a s).stack = s.stack := rfl
@[simp] theorem setI_sp (a : Word) (s : State) : (State.setI a s).sp = s.sp := rfl
@[simp] theorem setI_dt (a : Word) (s : State) : (State.setI a s).dt = s.dt := rfl
@[simp] theorem setI_st (a : Word) (s : State) : (State.setI a s).st = s.st := rfl
@[simp] theorem setI_disp (a : Word) (s : State) : (State.setI a s).disp = s.disp := rfl
@[simp] theorem setI_run (a : Word) (s : State) : (State.setI a s).run = s.run := rfl
@[simp] theorem setI_kwTarget (a : Word) (s : State) : (State.setI a s).kwTarget = s.kwTarget := rfl
@[simp] theorem setI_fault (a : Word) (s : State) : (State.setI a s).fault = s.fault := rfl
@[simp] theorem setI_env (a : Word) (s : State) : (State.setI a s).env = s.env := rfl
@[simp] theorem setI_turns (a : Word) (s : State) : (State.setI a s).turns = s.turns := rfl
@[simp] theorem setI_reg (a : Word) (s : State) (q : Reg) : (State.setI a s).reg q = s.reg q := rfl
@[simp] theorem setI_byte (a : Word) (s : State) (q : Nat) : (State.setI a s).byte q = s.byte q := rfl
@[simp] theorem setI_turn (a : Word) (s : State) : (State.setI a s).turn = s.turn := rfl
@[simp] theorem setI_input (a : Word) (s : State) : (State.setI a s).input = s.input := rfl

/-! ### setDt -/

@[simp] theorem setDt_mem (b : Byte) (s : State) : (State.setDt b s).mem = s.mem := rfl
@[simp] theorem setDt_i (b : Byte) (s : State) : (State.setDt b s).i = s.i := rfl
@[simp] theorem setDt_pc (b : Byte) (s : State) : (State.setDt b s).pc = s.pc := rfl
@[simp] theorem setDt_stack (b : Byte) (s : State) : (State.setDt b s).stack = s.stack := rfl
@[simp] theorem setDt_sp (b : Byte) (s : State) : (State.setDt b s).sp = s.sp := rfl
@[simp] theorem setDt_dt (b : Byte) (s : State) : (State.setDt b s).dt = b := rfl
@[simp] theorem setDt_st (b : Byte) (s : State) : (State.setDt b s).st = s.st := rfl
@[simp] theorem setDt_disp (b : Byte) (s : State) : (State.setDt b s).disp = s.disp := rfl
@[simp] theorem setDt_run (b : Byte) (s : State) : (State.setDt b s).run = s.run := rfl
@[simp] theorem setDt_kwTarget (b : Byte) (s : State) : (State.setDt b s).kwTarget = s.kwTarget := rfl
@[simp] theorem setDt_fault (b : Byte) (s : State) : (State.setDt b s).fault = s.fault := rfl
@[simp] theorem setDt_env (b : Byte) (s : State) : (State.setDt b s).env = s.env := rfl
@[simp] theorem setDt_turns (b : Byte) (s : State) : (State.setDt b s).turns = s.turns := rfl
@[simp] theorem setDt_reg (b : Byte) (s : State) (q : Reg) : (State.setDt b s).reg q = s.reg q := rfl
@[simp] theorem setDt_byte (b : Byte) (s : State) (q : Nat) : (State.setDt b s).byte q = s.byte q := rfl
@[simp] theorem setDt_turn (b : Byte) (s : State) : (State.setDt b s).turn = s.turn := rfl
@[simp] theorem setDt_input (b : Byte) (s : State) : (State.setDt b s).input = s.input := rfl

/-! ### setSt -/

@[simp] theorem setSt_mem (b : Byte) (s : State) : (State.setSt b s).mem = s.mem := rfl
@[simp] theorem setSt_i (b : Byte) (s : State) : (State.setSt b s).i = s.i := rfl
@[simp] theorem setSt_pc (b : Byte) (s : State) : (State.setSt b s).pc = s.pc := rfl
@[simp] theorem setSt_stack (b : Byte) (s : State) : (State.setSt b s).stack = s.stack := rfl
@[simp] theorem setSt_sp (b : Byte) (s : State) : (State.setSt b s).sp = s.sp := rfl
@[simp] theorem setSt_dt (b : Byte) (s : State) : (State.setSt b s).dt = s.dt := rfl
@[simp] theorem setSt_st (b : Byte) (s : State) : (State.setSt b s).st = b := rfl
@[simp] theorem setSt_disp (b : Byte) (s : State) : (State.setSt b s).disp = s.disp := rfl
@[simp] theorem setSt_run (b : Byte) (s : State) : (State.setSt b s).run = s.run := rfl
@[simp] theorem setSt_kwTarget (b : Byte) (s : State) : (State.setSt b s).kwTarget = s.kwTarget := rfl
@[simp] theorem setSt_fault (b : Byte) (s : State) : (State.setSt b s).fault = s.fault := rfl
@[simp] theorem setSt_env (b : Byte) (s : State) : (State.setSt b s).env = s.env := rfl
@[simp] theorem setSt_turns (b : Byte) (s : State) : (State.setSt b s).turns = s.turns := rfl
@[simp] theorem setSt_reg (b : Byte) (s : State) (q : Reg) : (State.setSt b s).reg q = s.reg q := rfl
@[simp] theorem setSt_byte (b : Byte) (s : State) (q : Nat) : (State.setSt b s).byte q = s.byte q := rfl
@[simp] theorem setSt_turn (b : Byte) (s : State) : (State.setSt b s).turn = s.turn := rfl
@[simp] theorem setSt_input (b : Byte) (s : State) : (State.setSt b s).input = s.input := rfl

/-! ### setDisp -/

@[simp] theorem setDisp_mem (d : Display) (s : State) : (State.setDisp d s).mem = s.mem := rfl
@[simp] theorem setDisp_i (d : Display) (s : State) : (State.setDisp d s).i = s.i := rfl
@[simp] theorem setDisp_pc (d : Display) (s : State) : (State.setDisp d s).pc = s.pc := rfl
@[simp] theorem setDisp_stack (d : Display) (s : State) : (State.setDisp d s).stack = s.stack := rfl
@[simp] theorem setDisp_sp (d : Display) (s : State) : (State.setDisp d s).sp = s.sp := rfl
@[simp] theorem setDisp_dt (d : Display) (s : State) : (State.setDisp d s).dt = s.dt := rfl
@[simp] theorem setDisp_st (d : Display) (s : State) : (State.setDisp d s).st = s.st := rfl
@[simp] theorem setDisp_disp (d : Display) (s : State) : (State.setDisp d s).disp = d := rfl
@[simp] theorem setDisp_run (d : Display) (s : State) : (State.setDisp d s).run = s.run := rfl
@[simp] theorem setDisp_kwTarget (d : Display) (s : State) : (State.setDisp d s).kwTarget = s.kwTarget := rfl
@[simp] theorem setDisp_fault (d : Display) (s : State) : (State.setDisp d s).fault = s.fault := rfl
@[simp] theorem setDisp_env (d : Display) (s : State) : (State.setDisp d s).env = s.env := rfl
@[simp] theorem setDisp_turns (d : Display) (s : State) : (State.setDisp d s).turns = s.turns := rfl
@[simp] theorem setDisp_reg (d : Display) (s : State) (q : Reg) : (State.setDisp d s).reg q = s.reg q := rfl
@[simp] theorem setDisp_byte (d : Display) (s : State) (q : Nat) : (State.setDisp d s).byte q = s.byte q := rfl
@[simp] theorem setDisp_turn (d : Display) (s : State) : (State.setDisp d s).turn = s.turn := rfl
@[simp] theorem setDisp_input (d : Display) (s : State) : (State.setDisp d s).input = s.input := rfl

/-! ### setMem -/

@[simp] theorem setMem_mem (m : Memory) (s : State) : (State.setMem m s).mem = m := rfl
@[simp] theorem setMem_i (m : Memory) (s : State) : (State.setMem m s).i = s.i := rfl
@[simp] theorem setMem_pc (m : Memory) (s : State) : (State.setMem m s).pc = s.pc := rfl
@[simp] theorem setMem_stack (m : Memory) (s : State) : (State.setMem m s).stack = s.stack := rfl
@[simp] theorem setMem_sp (m : Memory) (s : State) : (State.setMem m s).sp = s.sp := rfl
@[simp] theorem setMem_dt (m : Memory) (s : State) : (State.setMem m s).dt = s.dt := rfl
@[simp] theorem setMem_st (m : Memory) (s : State) : (State.setMem m s).st = s.st := rfl
@[simp] theorem setMem_disp (m : Memory) (s : State) : (State.setMem m s).disp = s.disp := rfl
@[simp] theorem setMem_run (m : Memory) (s : State) : (State.setMem m s).run = s.run := rfl
@[simp] theorem setMem_kwTarget (m : Memory) (s : State) : (State.setMem m s).kwTarget = s.kwTarget := rfl
@[simp] theorem setMem_fault (m : Memory) (s : State) : (State.setMem m s).fault = s.fault := rfl
@[simp] theorem setMem_env (m : Memory) (s : State) : (State.setMem m s).env = s.env := rfl
@[simp] theorem setMem_turns (m : Memory) (s : State) : (State.setMem m s).turns = s.turns := rfl
@[simp] theorem setMem_reg (m : Memory) (s : State) (q : Reg) : (State.setMem m s).reg q = s.reg q := rfl
@[simp] theorem setMem_turn (m : Memory) (s : State) : (State.setMem m s).turn = s.turn := rfl
@[simp] theorem setMem_input (m : Memory) (s : State) : (State.setMem m s).input = s.input := rfl

/-! ### setRun -/

@[simp] theorem setRun_mem (x : RunState) (s : State) : (State.setRun x s).mem = s.mem := rfl
@[simp] theorem setRun_i (x : RunState) (s : State) : (State.setRun x s).i = s.i := rfl
@[simp] theorem setRun_pc (x : RunState) (s : State) : (State.setRun x s).pc = s.pc := rfl
@[simp] theorem setRun_stack (x : RunState) (s : State) : (State.setRun x s).stack = s.stack := rfl
@[simp] theorem setRun_sp (x : RunState) (s : State) : (State.setRun x s).sp = s.sp := rfl
@[simp] theorem setRun_dt (x : RunState) (s : State) : (State.setRun x s).dt = s.dt := rfl
@[simp] theorem setRun_st (x : RunState) (s : State) : (State.setRun x s).st = s.st := rfl
@[simp] theorem setRun_disp (x : RunState) (s : State) : (State.setRun x s).disp = s.disp := rfl
@[simp] theorem setRun_run (x : RunState) (s : State) : (State.setRun x s).run = x := rfl
@[simp] theorem setRun_kwTarget (x : RunState) (s : State) : (State.setRun x s).kwTarget = s.kwTarget := rfl
@[simp] theorem setRun_fault (x : RunState) (s : State) : (State.setRun x s).fault = s.fault := rfl
@[simp] theorem setRun_env (x : RunState) (s : State) : (State.setRun x s).env = s.env := rfl
@[simp] theorem setRun_turns (x : RunState) (s : State) : (State.setRun x s).turns = s.turns := rfl
@[simp] theorem setRun_reg (x : RunState) (s : State) (q : Reg) : (State.setRun x s).reg q = s.reg q := rfl
@[simp] theorem setRun_byte (x : RunState) (s : State) (q : Nat) : (State.setRun x s).byte q = s.byte q := rfl
@[simp] theorem setRun_turn (x : RunState) (s : State) : (State.setRun x s).turn = s.turn := rfl
@[simp] theorem setRun_input (x : RunState) (s : State) : (State.setRun x s).input = s.input := rfl

/-! ### setKwTarget -/

@[simp] theorem setKwTarget_mem (x : Reg) (s : State) : (State.setKwTarget x s).mem = s.mem := rfl
@[simp] theorem setKwTarget_i (x : Reg) (s : State) : (State.setKwTarget x s).i = s.i := rfl
@[simp] theorem setKwTarget_pc (x : Reg) (s : State) : (State.setKwTarget x s).pc = s.pc := rfl
@[simp] theorem setKwTarget_stack (x : Reg) (s : State) : (State.setKwTarget x s).stack = s.stack := rfl
@[simp] theorem setKwTarget_sp (x : Reg) (s : State) : (State.setKwTarget x s).sp = s.sp := rfl
@[simp] theorem setKwTarget_dt (x : Reg) (s : State) : (State.setKwTarget x s).dt = s.dt := rfl
@[simp] theorem setKwTarget_st (x : Reg) (s : State) : (State.setKwTarget x s).st = s.st := rfl
@[simp] theorem setKwTarget_disp (x : Reg) (s : State) : (State.setKwTarget x s).disp = s.disp := rfl
@[simp] theorem setKwTarget_run (x : Reg) (s : State) : (State.setKwTarget x s).run = s.run := rfl
@[simp] theorem setKwTarget_kwTarget (x : Reg) (s : State) : (State.setKwTarget x s).kwTarget = x := rfl
@[simp] theorem setKwTarget_fault (x : Reg) (s : State) : (State.setKwTarget x s).fault = s.fault := rfl
@[simp] theorem setKwTarget_env (x : Reg) (s : State) : (State.setKwTarget x s).env = s.env := rfl
@[simp] theorem setKwTarget_turns (x : Reg) (s : State) : (State.setKwTarget x s).turns = s.turns := rfl
@[simp] theorem setKwTarget_reg (x : Reg) (s : State) (q : Reg) : (State.setKwTarget x s).reg q = s.reg q := rfl
@[simp] theorem setKwTarget_byte (x : Reg) (s : State) (q : Nat) : (State.setKwTarget x s).byte q = s.byte q := rfl
@[simp] theorem setKwTarget_turn (x : Reg) (s : State) : (State.setKwTarget x s).turn = s.turn := rfl
@[simp] theorem setKwTarget_input (x : Reg) (s : State) : (State.setKwTarget x s).input = s.input := rfl

/-! ### push -/

@[simp] theorem push_mem (a : Word) (s : State) : (State.push a s).mem = s.mem := rfl
@[simp] theorem push_i (a : Word) (s : State) : (State.push a s).i = s.i := rfl
@[simp] theorem push_pc (a : Word) (s : State) : (State.push a s).pc = s.pc := rfl
@[simp] theorem push_stack (a : Word) (s : State) : (State.push a s).stack = s.stack.set (s.sp + 1).val a := rfl
@[simp] theorem push_sp (a : Word) (s : State) : (State.push a s).sp = s.sp + 1 := rfl
@[simp] theorem push_dt (a : Word) (s : State) : (State.push a s).dt = s.dt := rfl
@[simp] theorem push_st (a : Word) (s : State) : (State.push a s).st = s.st := rfl
@[simp] theorem push_disp (a : Word) (s : State) : (State.push a s).disp = s.disp := rfl
@[simp] theorem push_run (a : Word) (s : State) : (State.push a s).run = s.run := rfl
@[simp] theorem push_kwTarget (a : Word) (s : State) : (State.push a s).kwTarget = s.kwTarget := rfl
@[simp] theorem push_fault (a : Word) (s : State) : (State.push a s).fault = s.fault := rfl
@[simp] theorem push_env (a : Word) (s : State) : (State.push a s).env = s.env := rfl
@[simp] theorem push_turns (a : Word) (s : State) : (State.push a s).turns = s.turns := rfl
@[simp] theorem push_reg (a : Word) (s : State) (q : Reg) : (State.push a s).reg q = s.reg q := rfl
@[simp] theorem push_byte (a : Word) (s : State) (q : Nat) : (State.push a s).byte q = s.byte q := rfl
@[simp] theorem push_turn (a : Word) (s : State) : (State.push a s).turn = s.turn := rfl
@[simp] theorem push_input (a : Word) (s : State) : (State.push a s).input = s.input := rfl

/-! ### pop -/

@[simp] theorem pop_mem (s : State) : (State.pop s).mem = s.mem := rfl
@[simp] theorem pop_i (s : State) : (State.pop s).i = s.i := rfl
@[simp] theorem pop_pc (s : State) : (State.pop s).pc = s.pc := rfl
@[simp] theorem pop_stack (s : State) : (State.pop s).stack = s.stack := rfl
@[simp] theorem pop_sp (s : State) : (State.pop s).sp = s.sp - 1 := rfl
@[simp] theorem pop_dt (s : State) : (State.pop s).dt = s.dt := rfl
@[simp] theorem pop_st (s : State) : (State.pop s).st = s.st := rfl
@[simp] theorem pop_disp (s : State) : (State.pop s).disp = s.disp := rfl
@[simp] theorem pop_run (s : State) : (State.pop s).run = s.run := rfl
@[simp] theorem pop_kwTarget (s : State) : (State.pop s).kwTarget = s.kwTarget := rfl
@[simp] theorem pop_fault (s : State) : (State.pop s).fault = s.fault := rfl
@[simp] theorem pop_env (s : State) : (State.pop s).env = s.env := rfl
@[simp] theorem pop_turns (s : State) : (State.pop s).turns = s.turns := rfl
@[simp] theorem pop_reg (s : State) (q : Reg) : (State.pop s).reg q = s.reg q := rfl
@[simp] theorem pop_byte (s : State) (q : Nat) : (State.pop s).byte q = s.byte q := rfl
@[simp] theorem pop_turn (s : State) : (State.pop s).turn = s.turn := rfl
@[simp] theorem pop_input (s : State) : (State.pop s).input = s.input := rfl

/-! ### raise -/

@[simp] theorem raise_mem (c : FaultCause) (w : Option Word) (a : Option Nat) (s : State) : (State.raise c w a s).mem = s.mem := rfl
@[simp] theorem raise_i (c : FaultCause) (w : Option Word) (a : Option Nat) (s : State) : (State.raise c w a s).i = s.i := rfl
@[simp] theorem raise_pc (c : FaultCause) (w : Option Word) (a : Option Nat) (s : State) : (State.raise c w a s).pc = s.pc := rfl
@[simp] theorem raise_stack (c : FaultCause) (w : Option Word) (a : Option Nat) (s : State) : (State.raise c w a s).stack = s.stack := rfl
@[simp] theorem raise_sp (c : FaultCause) (w : Option Word) (a : Option Nat) (s : State) : (State.raise c w a s).sp = s.sp := rfl
@[simp] theorem raise_dt (c : FaultCause) (w : Option Word) (a : Option Nat) (s : State) : (State.raise c w a s).dt = s.dt := rfl
@[simp] theorem raise_st (c : FaultCause) (w : Option Word) (a : Option Nat) (s : State) : (State.raise c w a s).st = s.st := rfl
@[simp] theorem raise_disp (c : FaultCause) (w : Option Word) (a : Option Nat) (s : State) : (State.raise c w a s).disp = s.disp := rfl
@[simp] theorem raise_run (c : FaultCause) (w : Option Word) (a : Option Nat) (s : State) : (State.raise c w a s).run = .halted := rfl
@[simp] theorem raise_kwTarget (c : FaultCause) (w : Option Word) (a : Option Nat) (s : State) : (State.raise c w a s).kwTarget = s.kwTarget := rfl
@[simp] theorem raise_fault (c : FaultCause) (w : Option Word) (a : Option Nat) (s : State) : (State.raise c w a s).fault = some { cause := c, pc := s.pc, word := w, addr := a } := rfl
@[simp] theorem raise_env (c : FaultCause) (w : Option Word) (a : Option Nat) (s : State) : (State.raise c w a s).env = s.env := rfl
@[simp] theorem raise_turns (c : FaultCause) (w : Option Word) (a : Option Nat) (s : State) : (State.raise c w a s).turns = s.turns := rfl
@[simp] theorem raise_reg (c : FaultCause) (w : Option Word) (a : Option Nat) (s : State) (q : Reg) : (State.raise c w a s).reg q = s.reg q := rfl
@[simp] theorem raise_byte (c : FaultCause) (w : Option Word) (a : Option Nat) (s : State) (q : Nat) : (State.raise c w a s).byte q = s.byte q := rfl
@[simp] theorem raise_turn (c : FaultCause) (w : Option Word) (a : Option Nat) (s : State) : (State.raise c w a s).turn = s.turn := rfl
@[simp] theorem raise_input (c : FaultCause) (w : Option Word) (a : Option Nat) (s : State) : (State.raise c w a s).input = s.input := rfl

/-! ### endTurn -/

@[simp] theorem endTurn_mem (s : State) : (State.endTurn s).mem = s.mem := rfl
@[simp] theorem endTurn_i (s : State) : (State.endTurn s).i = s.i := rfl
@[simp] theorem endTurn_pc (s : State) : (State.endTurn s).pc = s.pc := rfl
@[simp] theorem endTurn_stack (s : State) : (State.endTurn s).stack = s.stack := rfl
@[simp] theorem endTurn_sp (s : State) : (State.endTurn s).sp = s.sp := rfl
@[simp] theorem endTurn_dt (s : State) : (State.endTurn s).dt = s.dt := rfl
@[simp] theorem endTurn_st (s : State) : (State.endTurn s).st = s.st := rfl
@[simp] theorem endTurn_disp (s : State) : (State.endTurn s).disp = s.disp := rfl
@[simp] theorem endTurn_run (s : State) : (State.endTurn s).run = s.run := rfl
@[simp] theorem endTurn_kwTarget (s : State) : (State.endTurn s).kwTarget = s.kwTarget := rfl
@[simp] theorem endTurn_fault (s : State) : (State.endTurn s).fault = s.fault := rfl
@[simp] theorem endTurn_env (s : State) : (State.endTurn s).env = s.env.tail := rfl
@[simp] theorem endTurn_turns (s : State) : (State.endTurn s).turns = s.turns + 1 := rfl
@[simp] theorem endTurn_reg (s : State) (q : Reg) : (State.endTurn s).reg q = s.reg q := rfl
@[simp] theorem endTurn_byte (s : State) (q : Nat) : (State.endTurn s).byte q = s.byte q := rfl

/-! ### offer -/

@[simp] theorem offer_mem (t : Turn) (s : State) : (State.offer t s).mem = s.mem := rfl
@[simp] theorem offer_i (t : Turn) (s : State) : (State.offer t s).i = s.i := rfl
@[simp] theorem offer_pc (t : Turn) (s : State) : (State.offer t s).pc = s.pc := rfl
@[simp] theorem offer_stack (t : Turn) (s : State) : (State.offer t s).stack = s.stack := rfl
@[simp] theorem offer_sp (t : Turn) (s : State) : (State.offer t s).sp = s.sp := rfl
@[simp] theorem offer_dt (t : Turn) (s : State) : (State.offer t s).dt = s.dt := rfl
@[simp] theorem offer_st (t : Turn) (s : State) : (State.offer t s).st = s.st := rfl
@[simp] theorem offer_disp (t : Turn) (s : State) : (State.offer t s).disp = s.disp := rfl
@[simp] theorem offer_run (t : Turn) (s : State) : (State.offer t s).run = s.run := rfl
@[simp] theorem offer_kwTarget (t : Turn) (s : State) : (State.offer t s).kwTarget = s.kwTarget := rfl
@[simp] theorem offer_fault (t : Turn) (s : State) : (State.offer t s).fault = s.fault := rfl
@[simp] theorem offer_env (t : Turn) (s : State) : (State.offer t s).env = t :: s.env := rfl
@[simp] theorem offer_turns (t : Turn) (s : State) : (State.offer t s).turns = s.turns := rfl
@[simp] theorem offer_reg (t : Turn) (s : State) (q : Reg) : (State.offer t s).reg q = s.reg q := rfl
@[simp] theorem offer_byte (t : Turn) (s : State) (q : Nat) : (State.offer t s).byte q = s.byte q := rfl

@[simp] theorem setReg_reg (r : Reg) (b : Byte) (s : State) (q : Reg) :
    (s.setReg r b).reg q = if q = r then b else s.reg q := by
  by_cases h : q = r
  · simp [State.setReg, State.reg, h]
  · have h' : r.val ≠ q.val := fun e => h (Fin.ext e.symm)
    simp [State.setReg, State.reg, h, h']

@[simp] theorem setRegs_reg (f : Reg → Byte) (s : State) (q : Reg) : (s.setRegs f).reg q = f q := by
  obtain ⟨q, hq⟩ := q
  interval_cases q <;> rfl

@[simp] theorem setMem_byte (m : Memory) (s : State) (q : Nat) : (s.setMem m).byte q = Memory.read m q := rfl

@[simp] theorem offer_turn (t : Turn) (s : State) : (s.offer t).turn = t := rfl
@[simp] theorem offer_input (t : Turn) (s : State) : (s.offer t).input = t.input := rfl

/-! ### Ticks -/

@[simp] theorem tickMany_mem (n : Nat) (s : State) : (tickMany n s).mem = s.mem := rfl
@[simp] theorem tickMany_i (n : Nat) (s : State) : (tickMany n s).i = s.i := rfl
@[simp] theorem tickMany_pc (n : Nat) (s : State) : (tickMany n s).pc = s.pc := rfl
@[simp] theorem tickMany_stack (n : Nat) (s : State) : (tickMany n s).stack = s.stack := rfl
@[simp] theorem tickMany_sp (n : Nat) (s : State) : (tickMany n s).sp = s.sp := rfl
@[simp] theorem tickMany_dt (n : Nat) (s : State) : (tickMany n s).dt = countDown n s.dt := rfl
@[simp] theorem tickMany_st (n : Nat) (s : State) : (tickMany n s).st = countDown n s.st := rfl
@[simp] theorem tickMany_disp (n : Nat) (s : State) : (tickMany n s).disp = s.disp := rfl
@[simp] theorem tickMany_run (n : Nat) (s : State) : (tickMany n s).run = s.run := rfl
@[simp] theorem tickMany_kwTarget (n : Nat) (s : State) : (tickMany n s).kwTarget = s.kwTarget := rfl
@[simp] theorem tickMany_fault (n : Nat) (s : State) : (tickMany n s).fault = s.fault := rfl
@[simp] theorem tickMany_env (n : Nat) (s : State) : (tickMany n s).env = s.env := rfl
@[simp] theorem tickMany_turns (n : Nat) (s : State) : (tickMany n s).turns = s.turns := rfl
@[simp] theorem tickMany_reg (n : Nat) (s : State) (q : Reg) : (tickMany n s).reg q = s.reg q := rfl
@[simp] theorem tickMany_byte (n : Nat) (s : State) (q : Nat) : (tickMany n s).byte q = s.byte q := rfl
@[simp] theorem tickMany_turn (n : Nat) (s : State) : (tickMany n s).turn = s.turn := rfl
@[simp] theorem tickMany_input (n : Nat) (s : State) : (tickMany n s).input = s.input := rfl

@[simp] theorem tick_mem (s : State) : (tick s).mem = s.mem := rfl
@[simp] theorem tick_i (s : State) : (tick s).i = s.i := rfl
@[simp] theorem tick_pc (s : State) : (tick s).pc = s.pc := rfl
@[simp] theorem tick_stack (s : State) : (tick s).stack = s.stack := rfl
@[simp] theorem tick_sp (s : State) : (tick s).sp = s.sp := rfl
@[simp] theorem tick_dt (s : State) : (tick s).dt = tickTimer s.dt := rfl
@[simp] theorem tick_st (s : State) : (tick s).st = tickTimer s.st := rfl
@[simp] theorem tick_disp (s : State) : (tick s).disp = s.disp := rfl
@[simp] theorem tick_run (s : State) : (tick s).run = s.run := rfl
@[simp] theorem tick_kwTarget (s : State) : (tick s).kwTarget = s.kwTarget := rfl
@[simp] theorem tick_fault (s : State) : (tick s).fault = s.fault := rfl
@[simp] theorem tick_env (s : State) : (tick s).env = s.env := rfl
@[simp] theorem tick_turns (s : State) : (tick s).turns = s.turns := rfl
@[simp] theorem tick_reg (s : State) (q : Reg) : (tick s).reg q = s.reg q := rfl
@[simp] theorem tick_byte (s : State) (q : Nat) : (tick s).byte q = s.byte q := rfl
@[simp] theorem tick_turn (s : State) : (tick s).turn = s.turn := rfl
@[simp] theorem tick_input (s : State) : (tick s).input = s.input := rfl

/-! ### Outputs -/

@[simp] theorem output_display (s : State) : s.output.display = s.disp := rfl
@[simp] theorem output_keyWait (s : State) : s.output.keyWait = (s.run == .awaitingKey) := rfl
@[simp] theorem output_run (s : State) : s.output.run = s.run := rfl
@[simp] theorem output_fault (s : State) : s.output.fault = s.fault := rfl
@[simp] theorem output_faultRegisters (s : State) : s.output.faultRegisters = faultRegisters s.fault := rfl
@[simp] theorem output_soundTimer (s : State) : s.output.soundTimer = s.st := rfl

@[simp] theorem faultRegisters_none : faultRegisters none = { cause := 0, pc := 0, word := none, addr := none } := rfl
@[simp] theorem faultRegisters_some (r : FaultRecord) :
    faultRegisters (some r) = { cause := causeCode r.cause, pc := r.pc, word := r.word, addr := r.addr } := rfl

end Sys2Proof.Machine
end

