-- ==== Sys2Proof/Laws/Ops.lean ====
section
/-! SUPPORT. The laws of the shared operations: the range check, a guarded effect, the fetch, the operand forms, the
flag writes, stored bytes, timers and outcomes. Later proofs cite these and do not unfold the operations. -/

namespace Sys2Proof.Machine

/-! ### Range checks -/

theorem checkRange_none_iff (a len : Nat) (kind : AccessKind) :
    checkRange a len kind = none ↔ ∀ k < len, badAddress Param.protectReserved kind (a + k) = false := by
  simp [checkRange, List.find?_eq_none]

theorem checkRange_some {a len bad : Nat} {kind : AccessKind} (h : checkRange a len kind = some bad) :
    ∃ k < len, bad = a + k ∧ badAddress Param.protectReserved kind bad = true ∧
      ∀ j < k, badAddress Param.protectReserved kind (a + j) = false := by
  induction len generalizing bad with
  | zero => simp [checkRange] at h
  | succ len ih =>
    simp only [checkRange, List.range_succ, List.map_append, List.find?_append, Option.or_eq_some_iff] at h
    rcases h with h | ⟨hn, h⟩
    · obtain ⟨k, hk, rest⟩ := ih h
      exact ⟨k, by omega, rest⟩
    · have hn' := (checkRange_none_iff a len kind).mp hn
      simp only [List.map_cons, List.map_nil, List.find?_singleton] at h
      split at h
      · next hb =>
        obtain rfl : a + len = bad := by simpa using h
        exact ⟨len, by omega, rfl, hb, hn'⟩
      · simp at h

theorem badRead_iff (p : Bool) (a : Nat) : badAddress p .read a = false ↔ a ≤ 0xFFF := by
  simp [badAddress]

theorem badWrite_iff (a : Nat) : badAddress Param.protectReserved .write a = false ↔ 0x200 ≤ a ∧ a ≤ 0xFFF := by
  simp [badAddress, Param.protectReserved]
  omega

/-- A read range may be accessed exactly when it is empty or ends by 0xFFF. -/
theorem checkRange_read_iff (a len : Nat) : checkRange a len .read = none ↔ len = 0 ∨ a + len ≤ 0x1000 := by
  rw [checkRange_none_iff]
  simp only [badRead_iff]
  constructor
  · intro h
    by_cases hl : len = 0
    · exact .inl hl
    · have := h (len - 1) (by omega)
      exact .inr (by omega)
  · intro h k hk
    omega

/-- A write range may be accessed exactly when it is empty or lies in 0x200-0xFFF. -/
theorem checkRange_write_iff (a len : Nat) :
    checkRange a len .write = none ↔ len = 0 ∨ (0x200 ≤ a ∧ a + len ≤ 0x1000) := by
  rw [checkRange_none_iff]
  simp only [badWrite_iff]
  constructor
  · intro h
    by_cases hl : len = 0
    · exact .inl hl
    · have h0 := h 0 (by omega)
      have h1 := h (len - 1) (by omega)
      exact .inr (by omega)
  · intro h k hk
    omega

/-- Everything a guarded effect can do: the effect when the range is free, else an AddressFault. -/
theorem guardRange_cases (i : Instr) (a len : Nat) (kind : AccessKind) (f : State → State) (s : State) :
    (checkRange a len kind = none ∧ guardRange i a len kind f s = f s) ∨
      ∃ bad, checkRange a len kind = some bad ∧
        guardRange i a len kind f s = s.raise .address (some (encode i)) (some bad) := by
  unfold guardRange
  cases h : checkRange a len kind with
  | none => exact .inl ⟨rfl, rfl⟩
  | some bad => exact .inr ⟨bad, rfl, rfl⟩

theorem guardRange_ok {i : Instr} {a len : Nat} {kind : AccessKind} {f : State → State} {s : State}
    (h : checkRange a len kind = none) : guardRange i a len kind f s = f s := by
  simp [guardRange, h]

theorem guardRange_bad {i : Instr} {a len bad : Nat} {kind : AccessKind} {f : State → State} {s : State}
    (h : checkRange a len kind = some bad) :
    guardRange i a len kind f s = s.raise .address (some (encode i)) (some bad) := by
  simp [guardRange, h]

/-! ### Fetch -/

/-- When a fetch answers a word, and which. -/
theorem fetch_ok_iff (s : State) (w : Word) :
    fetch s = .ok w ↔
      s.pc.toNat ≤ 0xFFE ∧ w = wordOfBytes (s.byte s.pc.toNat) (s.byte (s.pc.toNat + 1)) := by
  unfold fetch
  cases h : checkRange s.pc.toNat 2 .read with
  | none =>
    have := (checkRange_read_iff _ _).mp h
    simp only [Except.ok.injEq]
    constructor
    · intro e
      exact ⟨by omega, e.symm⟩
    · intro e
      exact e.2.symm
  | some bad =>
    have : ¬checkRange s.pc.toNat 2 .read = none := by simp [h]
    rw [checkRange_read_iff] at this
    simp only [reduceCtorEq, false_iff, not_and]
    omega

/-- When a fetch faults, and at which address (20_memory.md R55). -/
theorem fetch_error_iff (s : State) (bad : Nat) :
    fetch s = .error bad ↔ s.pc.toNat > 0xFFE ∧ bad = if s.pc.toNat = 0xFFF then 0x1000 else s.pc.toNat := by
  unfold fetch
  cases h : checkRange s.pc.toNat 2 .read with
  | none =>
    have := (checkRange_read_iff _ _).mp h
    simp only [reduceCtorEq, false_iff, not_and]
    omega
  | some b =>
    obtain ⟨k, hk, rfl, hb, hlow⟩ := checkRange_some h
    have hb' : ¬(s.pc.toNat + k ≤ 0xFFF) := by
      rw [← badRead_iff Param.protectReserved]
      simp [hb]
    simp only [Except.error.injEq]
    rcases (by omega : k = 0 ∨ k = 1) with rfl | rfl
    · split <;> omega
    · have := (badRead_iff _ _).mp (hlow 0 (by omega))
      split <;> omega

@[simp] theorem fetch_tickMany (n : Nat) (s : State) : fetch (tickMany n s) = fetch s := rfl

/-! ### Operand forms -/

@[simp] theorem addressOperand_toNat (nnn : Addr12) : (addressOperand nnn).toNat = nnn.toNat := by
  have := nnn.isLt
  simp only [addressOperand, BitVec.toNat_setWidth]
  omega

@[simp] theorem indexedTarget_toNat (nnn : Addr12) (b : Byte) :
    (indexedTarget nnn b).toNat = nnn.toNat + b.toNat := by
  have := nnn.isLt
  have := b.isLt
  simp only [indexedTarget, BitVec.toNat_add, BitVec.toNat_setWidth]
  omega

@[simp] theorem regsUpTo_length (s : State) (x : Reg) : (s.regsUpTo x).length = x.val + 1 := by
  have := x.isLt
  simp [State.regsUpTo]

theorem regsUpTo_getElem (s : State) (x : Reg) (k : Nat) (hk : k < 16) (h : k < (s.regsUpTo x).length) :
    (s.regsUpTo x)[k] = s.reg ⟨k, hk⟩ := by
  simp [State.regsUpTo, State.reg]

@[simp] theorem bcdDigits_length (v : Byte) : (bcdDigits v).length = 3 := rfl

@[simp] theorem keyByte_toNat (k : Key) : (keyByte k).toNat = k.val := by
  have := k.isLt
  simp only [keyByte, BitVec.toNat_ofNat]
  omega

@[simp] theorem glyphAddress_mask_toNat (v : Byte) : (glyphAddress .mask v).toNat = 5 * (v.toNat % 16) := by
  simp only [glyphAddress, glyphDigit, BitVec.toNat_ofNat]
  omega

/-! ### Flags -/

@[simp] theorem flagByte_toNat (b : Bool) : (flagByte b).toNat = if b then 1 else 0 := by
  cases b <;> rfl

/-- The registers after a flag-writing operation under the default order (41_alu.md R120). -/
@[simp] theorem writeFlagAndResult_reg (x : Reg) (result : Byte) (flag : Bool) (s : State) (q : Reg) :
    (s.writeFlagAndResult .vfFirst x result flag).reg q =
      if q = x then result else if q = VF then flagByte flag else s.reg q := by
  simp [State.writeFlagAndResult]

/-! ### Stored bytes -/

/-- The memory after a store, byte by byte. -/
theorem storeBytes_byte (a : Nat) (bs : List Byte) (s : State) (q : Nat) :
    (s.storeBytes a bs).byte q = if h : a ≤ q ∧ q < a + bs.length then bs[q - a]'(by omega) else s.byte q :=
  read_writeBytes bs a s.mem q

theorem storeBytes_byte_outside {a q : Nat} {bs : List Byte} {s : State} (h : ¬(a ≤ q ∧ q < a + bs.length)) :
    (s.storeBytes a bs).byte q = s.byte q := by
  rw [storeBytes_byte, dif_neg h]

theorem storeBytes_byte_inside (a : Nat) (bs : List Byte) (s : State) (k : Nat) (h : k < bs.length) :
    (s.storeBytes a bs).byte (a + k) = bs[k] := by
  rw [storeBytes_byte, dif_pos ⟨by omega, by omega⟩]
  congr 1
  omega

/-! ### Fault codes -/

theorem causeCode_le (c : FaultCause) : (causeCode c).toNat ≤ 4 := by cases c <;> decide

/-- No cause has the code that says none. -/
@[simp] theorem causeCode_ne_zero (c : FaultCause) : causeCode c ≠ 0#3 := by cases c <;> decide

/-! ### Timers -/

theorem tickTimer_toNat (b : Byte) : (tickTimer b).toNat = b.toNat - 1 := by
  unfold tickTimer
  split
  · next h => simp [h]
  · next h =>
    have : b.toNat ≠ 0 := fun e => h (BitVec.eq_of_toNat_eq (by simpa using e))
    have := b.isLt
    have h1 : (1 : Byte).toNat = 1 := rfl
    rw [BitVec.toNat_sub, h1]
    omega

theorem countDown_toNat (n : Nat) (b : Byte) : (countDown n b).toNat = b.toNat - n := by
  unfold countDown
  split
  · next h => simp [h]
  · have := b.isLt
    simp only [BitVec.toNat_ofNat]
    omega

theorem countDown_zero (b : Byte) : countDown 0 b = b :=
  BitVec.eq_of_toNat_eq (by rw [countDown_toNat]; rfl)

theorem countDown_add (n m : Nat) (b : Byte) : countDown (n + m) b = countDown m (countDown n b) :=
  BitVec.eq_of_toNat_eq (by simp only [countDown_toNat]; omega)

/-- One tick more is one `tickTimer` more. -/
theorem countDown_succ (n : Nat) (b : Byte) : countDown (n + 1) b = tickTimer (countDown n b) :=
  BitVec.eq_of_toNat_eq (by rw [tickTimer_toNat]; simp only [countDown_toNat]; omega)

theorem tickMany_zero (s : State) : tickMany 0 s = s := by simp [tickMany, countDown_zero]

theorem tickMany_add (n m : Nat) (s : State) : tickMany (n + m) s = tickMany m (tickMany n s) := by
  simp [tickMany, countDown_add]

/-! ### Program counter and call stack -/

/-- Where the skip class goes (30_encoding.md R78). -/
theorem skipIf_pc_toNat (c : Bool) (s : State) :
    (s.skipIf c).pc.toNat = (s.pc.toNat + if c then 4 else 2) % 65536 := by
  cases c <;> simp [State.skipIf, BitVec.toNat_add]

/-- Below the top, a push moves SP up by one (10_state.md R28). -/
theorem sp_succ_val {sp : Fin 16} (h : sp ≠ 15) : (sp + 1).val = sp.val + 1 := by
  have : sp.val ≠ 15 := fun e => h (Fin.ext e)
  have := sp.isLt
  rw [Fin.val_add]
  show (sp.val + 1) % 16 = _
  omega

/-! ### Outcomes -/

@[simp] theorem mapNext_next (f : State → State) (s : State) : mapNext f (.next s) = .next (f s) := rfl

theorem mapNext_eq_next {f : State → State} {o : Host.Outcome State Fault Refusal} {t : State} :
    mapNext f o = .next t ↔ ∃ u, o = .next u ∧ f u = t := by
  cases o <;> simp [mapNext]

/-- The step is one turn: ticks, the step by run state, the end of the turn. -/
theorem step_eq (s : State) :
    takeTurn s = mapNext State.endTurn (stepByRunState (tickMany s.turn.ticks s)) := rfl

/-! ### The placed word -/

/-- The word placed for the next fetch is the word the next step fetches. -/
theorem fetch_placeFetchWord (w : Word) (s : State) : fetch (placeFetchWord w s) = .ok w := by
  have hp : (fetchPlace s).toNat ≤ 0xFFE := by
    unfold fetchPlace
    split
    · assumption
    · decide
  rw [fetch_ok_iff]
  refine ⟨hp, ?_⟩
  have h0 := storeBytes_byte_inside (fetchPlace s).toNat [firstByte w, secondByte w]
    ((s.setPc (fetchPlace s)).setRun .running) 0 (by simp)
  have h1 := storeBytes_byte_inside (fetchPlace s).toNat [firstByte w, secondByte w]
    ((s.setPc (fetchPlace s)).setRun .running) 1 (by simp)
  simp only [Nat.add_zero] at h0
  show w = wordOfBytes
    (((s.setPc (fetchPlace s)).setRun .running).storeBytes (fetchPlace s).toNat [firstByte w, secondByte w] |>.byte
      (fetchPlace s).toNat)
    (((s.setPc (fetchPlace s)).setRun .running).storeBytes (fetchPlace s).toNat [firstByte w, secondByte w] |>.byte
      ((fetchPlace s).toNat + 1))
  rw [h0, h1]
  exact (wordOfBytes_bytes w).symm

end Sys2Proof.Machine
end

