-- ==== Sys2Proof/Laws/Display.lean ====
section
/-! SUPPORT. The laws of the display and of the draw: what a toggle does to each pixel, and what a sprite byte and a
whole sprite do when no pixel is touched twice (43_display.md R172). -/

namespace Sys2Proof.Machine

@[simp] theorem pixel_clear (row col : Nat) : Display.pixel Display.clear row col = false := by
  simp [Display.pixel, Display.clear]

/-- A pixel's coordinates wrap (10_state.md R31). -/
@[simp] theorem pixel_mod (d : Display) (row col : Nat) :
    Display.pixel d (row % 32) (col % 64) = Display.pixel d row col := by
  simp [Display.pixel]

/-- Two displays with the same pixels are equal data. -/
theorem display_ext {d e : Display}
    (h : ∀ row < 32, ∀ col < 64, Display.pixel d row col = Display.pixel e row col) : d = e := by
  apply Vector.ext
  intro r hr
  apply Vector.ext
  intro c hc
  have := h r hr c hc
  simpa [Display.pixel, Nat.mod_eq_of_lt hr, Nat.mod_eq_of_lt hc] using this

/-- A toggle turns over its own pixel and no other. -/
theorem pixel_toggle (d : Display) (row col r c : Nat) :
    Display.pixel (Display.toggle d row col) r c =
      (Display.pixel d r c ^^ decide (r % 32 = row % 32 ∧ c % 64 = col % 64)) := by
  unfold Display.toggle
  by_cases hr : r % 32 = row % 32
  · by_cases hc : c % 64 = col % 64
    · simp [Display.pixel, hr, hc]
    · simp [Display.pixel, hr, hc, Ne.symm hc]
  · simp [Display.pixel, hr, Ne.symm hr]

/-! ### A sprite byte -/

/-- The first `m` columns of a row of the draw. -/
def blitCols (byte : Byte) (x0 row m : Nat) (b : Blit) : Blit :=
  (List.range m).foldl (fun b c => if byte.getLsbD (7 - c) then blitPixel row (x0 + c) b else b) b

theorem blitRow_eq_blitCols (byte : Byte) (x0 row : Nat) (b : Blit) :
    blitRow byte x0 row b = blitCols byte x0 row 8 b := rfl

theorem blitCols_succ (byte : Byte) (x0 row m : Nat) (b : Blit) :
    blitCols byte x0 row (m + 1) b =
      if byte.getLsbD (7 - m) then blitPixel row (x0 + m) (blitCols byte x0 row m b)
      else blitCols byte x0 row m b := by
  simp [blitCols, List.range_succ, List.foldl_append]

/-- The columns of a sprite byte below `m` put a 1 bit on column `col`. -/
def bitsCover (byte : Byte) (x0 m col : Nat) : Prop :=
  ∃ k < m, byte.getLsbD (7 - k) = true ∧ (x0 + k) % 64 = col % 64

theorem bitsCover_succ (byte : Byte) (x0 m col : Nat) :
    bitsCover byte x0 (m + 1) col ↔
      bitsCover byte x0 m col ∨ (byte.getLsbD (7 - m) = true ∧ (x0 + m) % 64 = col % 64) := by
  constructor
  · rintro ⟨k, hk, h⟩
    rcases Nat.lt_succ_iff_lt_or_eq.mp hk with hk | rfl
    · exact .inl ⟨k, hk, h⟩
    · exact .inr h
  · rintro (⟨k, hk, h⟩ | h)
    · exact ⟨k, by omega, h⟩
    · exact ⟨m, by omega, h⟩

open Classical in
theorem blitCols_pixel (byte : Byte) (x0 row m : Nat) (hm : m ≤ 64) (b : Blit) (r c : Nat) :
    Display.pixel (blitCols byte x0 row m b).disp r c =
      (Display.pixel b.disp r c ^^ decide (r % 32 = row % 32 ∧ bitsCover byte x0 m c)) := by
  induction m with
  | zero => simp [blitCols, bitsCover]
  | succ m ih =>
    rw [blitCols_succ]
    have ih := ih (by omega)
    split
    · next hbit =>
      rw [blitPixel, pixel_toggle, ih, Bool.xor_assoc]
      congr 1
      have hnew : c % 64 = (x0 + m) % 64 → ¬bitsCover byte x0 m c := by
        rintro e ⟨k, hk, _, e'⟩
        omega
      have hsucc : bitsCover byte x0 (m + 1) c ↔ bitsCover byte x0 m c ∨ c % 64 = (x0 + m) % 64 := by
        rw [bitsCover_succ, eq_comm (a := (x0 + m) % 64)]
        simp [hbit]
      by_cases hr : r % 32 = row % 32
      · by_cases hc : c % 64 = (x0 + m) % 64
        · simp [hr, hc, hsucc, hnew hc]
        · simp [hr, hc, hsucc]
      · simp [hr]
    · next hbit => simp [ih, bitsCover_succ, hbit]

open Classical in
theorem blitCols_hit (byte : Byte) (x0 row m : Nat) (hm : m ≤ 64) (b : Blit) :
    (blitCols byte x0 row m b).hit =
      (b.hit || decide (∃ k < m, byte.getLsbD (7 - k) = true ∧ Display.pixel b.disp row (x0 + k) = true)) := by
  induction m with
  | zero => simp [blitCols]
  | succ m ih =>
    rw [blitCols_succ]
    have ih := ih (by omega)
    have hsplit : (∃ k < m + 1, byte.getLsbD (7 - k) = true ∧ Display.pixel b.disp row (x0 + k) = true) ↔
        (∃ k < m, byte.getLsbD (7 - k) = true ∧ Display.pixel b.disp row (x0 + k) = true) ∨
          (byte.getLsbD (7 - m) = true ∧ Display.pixel b.disp row (x0 + m) = true) := by
      constructor
      · rintro ⟨k, hk, h⟩
        rcases Nat.lt_succ_iff_lt_or_eq.mp hk with hk | rfl
        · exact .inl ⟨k, hk, h⟩
        · exact .inr h
      · rintro (⟨k, hk, h⟩ | h)
        · exact ⟨k, by omega, h⟩
        · exact ⟨m, by omega, h⟩
    simp only [hsplit]
    split
    · next hbit =>
      have hfresh : ¬bitsCover byte x0 m (x0 + m) := by
        rintro ⟨k, hk, _, e⟩
        omega
      simp only [blitPixel, blitCols_pixel byte x0 row m (by omega), ih, hfresh, hbit]
      simp [Bool.or_assoc]
    · next hbit => simp [ih, hbit]

/-! ### A whole sprite -/

open Classical in
/-- The draw as one parallel XOR of at most 32 rows: the pixels. -/
theorem blitSprite_pixel (bs : List Byte) (x0 row : Nat) (b : Blit) (hlen : bs.length ≤ 32) (r c : Nat) :
    Display.pixel (blitSprite bs x0 row b).disp r c =
      (Display.pixel b.disp r c ^^
        decide (∃ j, ∃ h : j < bs.length, (row + j) % 32 = r % 32 ∧ bitsCover bs[j] x0 8 c)) := by
  induction bs generalizing row b with
  | nil => simp [blitSprite]
  | cons byte bs ih =>
    simp only [List.length_cons] at hlen
    rw [blitSprite, ih _ _ (by omega), blitRow_eq_blitCols, blitCols_pixel _ _ _ _ (by omega), Bool.xor_assoc]
    congr 1
    have hsplit : (∃ j, ∃ h : j < (byte :: bs).length, (row + j) % 32 = r % 32 ∧ bitsCover (byte :: bs)[j] x0 8 c) ↔
        (r % 32 = row % 32 ∧ bitsCover byte x0 8 c) ∨
          ∃ j, ∃ h : j < bs.length, (row + 1 + j) % 32 = r % 32 ∧ bitsCover bs[j] x0 8 c := by
      constructor
      · rintro ⟨j, hj, e, hb⟩
        cases j with
        | zero => exact .inl ⟨e.symm, hb⟩
        | succ j => exact .inr ⟨j, by simpa using hj, by rw [← e]; congr 1; omega, hb⟩
      · rintro (⟨e, hb⟩ | ⟨j, hj, e, hb⟩)
        · exact ⟨0, by simp, e.symm, hb⟩
        · exact ⟨j + 1, by simpa using hj, by rw [← e]; congr 1; omega, hb⟩
    have hone : r % 32 = row % 32 → ¬∃ j, ∃ h : j < bs.length, (row + 1 + j) % 32 = r % 32 ∧
        bitsCover bs[j] x0 8 c := by
      rintro e ⟨j, hj, e', _⟩
      omega
    simp only [hsplit]
    by_cases h1 : r % 32 = row % 32 ∧ bitsCover byte x0 8 c
    · have h2 := hone h1.1
      rw [decide_eq_true h1, decide_eq_false h2, decide_eq_true (.inl h1)]
      rfl
    · simp only [h1, false_or, decide_false, Bool.false_xor]

/-- The draw as one parallel XOR of at most 32 rows: the collision, against the display before the draw. -/
theorem blitSprite_hit (bs : List Byte) (x0 row : Nat) (b : Blit) (hlen : bs.length ≤ 32) :
    (blitSprite bs x0 row b).hit = true ↔
      b.hit = true ∨ ∃ j, ∃ h : j < bs.length, ∃ k < 8, bs[j].getLsbD (7 - k) = true ∧
        Display.pixel b.disp (row + j) (x0 + k) = true := by
  induction bs generalizing row b with
  | nil => simp [blitSprite]
  | cons byte bs ih =>
    simp only [List.length_cons] at hlen
    rw [blitSprite, ih _ _ (by omega), blitRow_eq_blitCols, blitCols_hit _ _ _ _ (by omega), Bool.or_eq_true,
      or_assoc]
    refine or_congr_right ?_
    have hsame : ∀ j < bs.length, ∀ k, Display.pixel (blitCols byte x0 row 8 b).disp (row + 1 + j) (x0 + k) =
        Display.pixel b.disp (row + 1 + j) (x0 + k) := by
      intro j hj k
      rw [blitCols_pixel _ _ _ _ (by omega)]
      have : ¬((row + 1 + j) % 32 = row % 32) := by omega
      simp [this]
    constructor
    · rintro (h | ⟨j, hj, k, hk, h1, h2⟩)
      · obtain ⟨k, hk, h1, h2⟩ := of_decide_eq_true h
        exact ⟨0, by simp, k, hk, h1, h2⟩
      · rw [hsame j hj] at h2
        exact ⟨j + 1, by simpa using hj, k, hk, h1, by rw [← h2]; congr 1; omega⟩
    · rintro ⟨j, hj, k, hk, h1, h2⟩
      cases j with
      | zero => exact .inl (decide_eq_true ⟨k, hk, h1, h2⟩)
      | succ j =>
        have hj : j < bs.length := by simpa using hj
        refine .inr ⟨j, hj, k, hk, h1, ?_⟩
        rw [hsame j hj, ← h2]
        congr 1
        omega

end Sys2Proof.Machine
end

