-- ==== Sys2Proof/Laws/PerInstr.lean ====
section
/-! SUPPORT. Statements about every instruction as syntax, one lemma per constructor. -/

namespace Sys2Proof.Laws.EncodeMatchesRow

/-- The word of an instruction matches the instruction's own row of the opcode map (30_encoding.md R77). -/
def Statement (i : Instr) : Prop := i.row.accepts (encode i) = true

theorem cls : Statement .cls := rfl
theorem ret : Statement .ret := rfl
theorem jp (nnn : Addr12) : Statement (.jp nnn) :=
  beq_iff_eq.mpr (formA_masked _ _)
theorem call (nnn : Addr12) : Statement (.call nnn) :=
  beq_iff_eq.mpr (formA_masked _ _)
theorem seImm (x : Reg) (kk : Byte) : Statement (.seImm x kk) :=
  beq_iff_eq.mpr ((masked_A_iff (formXK 0x3 x kk) 0x3).mpr (fieldOp_formXK 0x3 x kk))
theorem sneImm (x : Reg) (kk : Byte) : Statement (.sneImm x kk) :=
  beq_iff_eq.mpr ((masked_A_iff (formXK 0x4 x kk) 0x4).mpr (fieldOp_formXK 0x4 x kk))
theorem seReg (x y : Reg) : Statement (.seReg x y) :=
  beq_iff_eq.mpr (formXYN_masked _ _ _ _)
theorem ldImm (x : Reg) (kk : Byte) : Statement (.ldImm x kk) :=
  beq_iff_eq.mpr ((masked_A_iff (formXK 0x6 x kk) 0x6).mpr (fieldOp_formXK 0x6 x kk))
theorem addImm (x : Reg) (kk : Byte) : Statement (.addImm x kk) :=
  beq_iff_eq.mpr ((masked_A_iff (formXK 0x7 x kk) 0x7).mpr (fieldOp_formXK 0x7 x kk))
theorem ldReg (x y : Reg) : Statement (.ldReg x y) :=
  beq_iff_eq.mpr (formXYN_masked _ _ _ _)
theorem or (x y : Reg) : Statement (.or x y) :=
  beq_iff_eq.mpr (formXYN_masked _ _ _ _)
theorem and (x y : Reg) : Statement (.and x y) :=
  beq_iff_eq.mpr (formXYN_masked _ _ _ _)
theorem xor (x y : Reg) : Statement (.xor x y) :=
  beq_iff_eq.mpr (formXYN_masked _ _ _ _)
theorem add (x y : Reg) : Statement (.add x y) :=
  beq_iff_eq.mpr (formXYN_masked _ _ _ _)
theorem sub (x y : Reg) : Statement (.sub x y) :=
  beq_iff_eq.mpr (formXYN_masked _ _ _ _)
theorem shr (x y : Reg) : Statement (.shr x y) :=
  beq_iff_eq.mpr (formXYN_masked _ _ _ _)
theorem subn (x y : Reg) : Statement (.subn x y) :=
  beq_iff_eq.mpr (formXYN_masked _ _ _ _)
theorem shl (x y : Reg) : Statement (.shl x y) :=
  beq_iff_eq.mpr (formXYN_masked _ _ _ _)
theorem sneReg (x y : Reg) : Statement (.sneReg x y) :=
  beq_iff_eq.mpr (formXYN_masked _ _ _ _)
theorem ldI (nnn : Addr12) : Statement (.ldI nnn) :=
  beq_iff_eq.mpr (formA_masked _ _)
theorem jpV0 (nnn : Addr12) : Statement (.jpV0 nnn) :=
  beq_iff_eq.mpr (formA_masked _ _)
theorem rnd (x : Reg) (kk : Byte) : Statement (.rnd x kk) :=
  beq_iff_eq.mpr ((masked_A_iff (formXK 0xC x kk) 0xC).mpr (fieldOp_formXK 0xC x kk))
theorem drw (x y : Reg) (n : Fin 16) : Statement (.drw x y n) :=
  beq_iff_eq.mpr
    ((masked_A_iff (formXYN 0xD x y (BitVec.ofFin (w := 4) n)) 0xD).mpr (fieldOp_formXYN _ _ _ _))
theorem skp (x : Reg) : Statement (.skp x) :=
  beq_iff_eq.mpr (formXK_masked _ _ _)
theorem sknp (x : Reg) : Statement (.sknp x) :=
  beq_iff_eq.mpr (formXK_masked _ _ _)
theorem ldRegDt (x : Reg) : Statement (.ldRegDt x) :=
  beq_iff_eq.mpr (formXK_masked _ _ _)
theorem ldRegKey (x : Reg) : Statement (.ldRegKey x) :=
  beq_iff_eq.mpr (formXK_masked _ _ _)
theorem ldDtReg (x : Reg) : Statement (.ldDtReg x) :=
  beq_iff_eq.mpr (formXK_masked _ _ _)
theorem ldStReg (x : Reg) : Statement (.ldStReg x) :=
  beq_iff_eq.mpr (formXK_masked _ _ _)
theorem addI (x : Reg) : Statement (.addI x) :=
  beq_iff_eq.mpr (formXK_masked _ _ _)
theorem ldFont (x : Reg) : Statement (.ldFont x) :=
  beq_iff_eq.mpr (formXK_masked _ _ _)
theorem ldBcd (x : Reg) : Statement (.ldBcd x) :=
  beq_iff_eq.mpr (formXK_masked _ _ _)
theorem storeRegs (x : Reg) : Statement (.storeRegs x) :=
  beq_iff_eq.mpr (formXK_masked _ _ _)
theorem loadRegs (x : Reg) : Statement (.loadRegs x) :=
  beq_iff_eq.mpr (formXK_masked _ _ _)

end Sys2Proof.Laws.EncodeMatchesRow
end

