-- ==== Sys2Proof/Laws/Safety.lean ====
section
/-! SUPPORT. Facts about the terms of Safety.lean: completing, byte parts, frames of the shared operations, and runs. -/

namespace Sys2Proof.Machine

/-! ### Completion -/

theorem completesWith_of_eq {P : State → Prop} {o : Host.Outcome State Fault Refusal} (t : State) (h : o = .next t)
    (hp : P t) : CompletesWith o P := ⟨t, h, hp⟩

@[simp] theorem completesWith_next {P : State → Prop} {t : State} : CompletesWith (.next t) P ↔ P t := by
  simp [CompletesWith]

/-! ### Parts and frames -/

theorem mem_byteParts {a len q : Nat} : Part.byte q ∈ byteParts a len ↔ a ≤ q ∧ q < a + len := by
  simp only [byteParts, List.mem_map, List.mem_range, Part.byte.injEq]
  constructor
  · rintro ⟨k, hk, rfl⟩
    omega
  · intro h
    exact ⟨q - a, by omega, by omega⟩

theorem mem_regParts {x r : Reg} : Part.reg r ∈ regParts x ↔ r ≤ x := by
  simp only [regParts, List.mem_map, List.mem_range, Part.reg.injEq]
  constructor
  · rintro ⟨k, hk, rfl⟩
    have := x.isLt
    rw [Fin.le_def, Fin.val_ofNat]
    omega
  · intro h
    exact ⟨r.val, Nat.lt_succ_of_le h, by simp⟩

/-- Nothing changed is a change within any parts. -/
theorem changesOnly_refl (W : List Part) (s : State) : ChangesOnly W s s := by
  constructor <;> intros <;> rfl

/-- Taking a fault changes RUN and FAULT only (60_exceptions.md R221). -/
theorem changesOnly_raise (c : FaultCause) (w : Option Word) (a : Option Nat) (s : State) :
    ChangesOnly [.run, .fault] s (s.raise c w a) := by
  constructor
  case run => simp
  case fault => simp
  all_goals intros; rfl

/-- Storing bytes changes those bytes only. -/
theorem changesOnly_storeBytes (a : Nat) (bs : List Byte) (s : State) :
    ChangesOnly (byteParts a bs.length) s (s.storeBytes a bs) := by
  constructor
  case bytes =>
    intro q hq
    exact storeBytes_byte_outside (by simpa [mem_byteParts] using hq)
  all_goals intros; rfl

/-! ### The instruction at PC -/

/-- At the instruction, the fetch gives a word that decodes to it. -/
theorem fetch_of_atPc {s : State} {i : Instr} (h : AtPc s i) : ∃ w, fetch s = .ok w ∧ decodeWord w = some i :=
  ⟨_, (fetch_ok_iff _ _).mpr ⟨h.1, rfl⟩, (decode_pair_ok_iff.mp h.2).1⟩

/-! ### Runs -/

theorem stepsFrom_succ (k : Nat) (s : State) :
    stepsFrom (k + 1) s =
      match step s with
      | .next t => stepsFrom k t
      | .fault r => .fault r
      | .refused r => .refused r := rfl

theorem coreRun_of_next {M : Host.Core} {k : Nat} {s t : M.State} (h : M.step s = .next t) :
    M.run (k + 1) s = M.run k t := by
  simp [Host.Core.run, h]

theorem coreRun_of_fault {M : Host.Core} {k : Nat} {s : M.State} {r : M.Fault} (h : M.step s = .fault r) :
    M.run (k + 1) s = .fault r := by
  simp [Host.Core.run, h]

theorem coreRun_of_refused {M : Host.Core} {k : Nat} {s : M.State} {r : M.Refusal} (h : M.step s = .refused r) :
    M.run (k + 1) s = .refused r := by
  simp [Host.Core.run, h]

/-- A run of steps is the host's run of the machine. -/
theorem stepsFrom_eq_run (k : Nat) (s : State) : stepsFrom k s = Host.Core.run Sys2Proof.core k s := by
  induction k generalizing s with
  | zero => rfl
  | succ k ih =>
    rw [stepsFrom_succ]
    cases h : step s with
    | next t => exact (ih t).trans (coreRun_of_next (M := Sys2Proof.core) h).symm
    | fault r => exact (coreRun_of_fault (M := Sys2Proof.core) h).symm
    | refused r => exact (coreRun_of_refused (M := Sys2Proof.core) h).symm

end Sys2Proof.Machine
end

