-- ==== Sys2Proof/Tests/Slice0.lean ====
section
/-! SUPPORT. Tests: the decoding of words written out from 30_encoding.md R77, the WellFormed smoke tests, single steps
on the spec's own vectors (95_test_vectors.md), and for every statement with hypotheses a witness that meets them. -/

namespace Sys2Proof.Tests

open Sys2Proof.Machine

/-! ### Decoding: words written out from the patterns of 30_encoding.md R77 -/

theorem test_decode_control : decodeTableWord 16 0x00EE = some .ret ∧ decodeTableWord 16 0x1234 = some (.jp 0x234) ∧
    decodeTableWord 16 0x2ABC = some (.call 0xABC) ∧ decodeTableWord 16 0xBFFF = some (.jpV0 0xFFF) := by decide

theorem test_decode_skips : decodeTableWord 16 0x3310 = some (.seImm 3 0x10) ∧
    decodeTableWord 16 0x4F01 = some (.sneImm 15 0x01) ∧ decodeTableWord 16 0x5120 = some (.seReg 1 2) ∧
    decodeTableWord 16 0x9AB0 = some (.sneReg 10 11) := by decide

theorem test_decode_loads : decodeTableWord 16 0x6A42 = some (.ldImm 10 0x42) ∧
    decodeTableWord 16 0x71FF = some (.addImm 1 0xFF) ∧ decodeTableWord 16 0x8150 = some (.ldReg 1 5) ∧
    decodeTableWord 16 0xC50F = some (.rnd 5 0x0F) := by decide

theorem test_decode_alu : decodeTableWord 16 0x8121 = some (.or 1 2) ∧ decodeTableWord 16 0x8122 = some (.and 1 2) ∧
    decodeTableWord 16 0x8123 = some (.xor 1 2) ∧ decodeTableWord 16 0x8124 = some (.add 1 2) ∧
    decodeTableWord 16 0x8125 = some (.sub 1 2) ∧ decodeTableWord 16 0x8AB6 = some (.shr 10 11) ∧
    decodeTableWord 16 0x8127 = some (.subn 1 2) ∧ decodeTableWord 16 0x8F0E = some (.shl 15 0) := by decide

theorem test_decode_index : decodeTableWord 16 0xA300 = some (.ldI 0x300) ∧ decodeTableWord 16 0xF21E = some (.addI 2) ∧
    decodeTableWord 16 0xF029 = some (.ldFont 0) ∧ decodeTableWord 16 0xF533 = some (.ldBcd 5) ∧
    decodeTableWord 16 0xF355 = some (.storeRegs 3) ∧ decodeTableWord 16 0xFF65 = some (.loadRegs 15) := by decide

theorem test_decode_display : decodeTableWord 16 0x00E0 = some .cls ∧
    decodeTableWord 16 0xD01F = some (.drw 0 1 15) := by decide

theorem test_decode_keys_timers : decodeTableWord 16 0xE19E = some (.skp 1) ∧ decodeTableWord 16 0xE1A1 = some (.sknp 1) ∧
    decodeTableWord 16 0xF307 = some (.ldRegDt 3) ∧ decodeTableWord 16 0xF50A = some (.ldRegKey 5) ∧
    decodeTableWord 16 0xF415 = some (.ldDtReg 4) ∧ decodeTableWord 16 0xF418 = some (.ldStReg 4) := by decide

/-! ### WellFormed smoke tests: what each check refuses (95_test_vectors.md V6.1-V6.10, V7.2, V7.3) -/

theorem test_illegal_zero_row : ([0x0000, 0x0123, 0x00E1, 0x01E0, 0x00FF].map legalWord).any id = false := by decide

theorem test_illegal_minor_nibble :
    ([0x5121, 0x8008, 0x8009, 0x800A, 0x800B, 0x800C, 0x800D, 0x800F, 0x9121].map legalWord).any id = false := by decide

theorem test_illegal_function_byte :
    ([0xE000, 0xE19F, 0xE1A0, 0xF000, 0xF0FF, 0xF130, 0xF175].map legalWord).any id = false := by decide

theorem test_row_refuses_other_word : (Instr.row (.seReg 1 2)).accepts 0x5121 = false ∧
    (Instr.row .cls).accepts 0x01E0 = false := by decide

theorem test_decode_rejects_by_name : (∃ w, decode [0x51, 0x21] = .error (.illegalWord w) ∧ w = 0x5121) ∧
    decode [0x51] = .error .tooShort := ⟨⟨_, rfl, by decide⟩, rfl⟩

theorem test_image_bounds : imageFits (List.replicate 3584 0xAA) = true ∧
    imageFits (List.replicate 3585 0xAA) = false := by
  constructor <;> rw [imageFits, List.length_replicate] <;> rfl

/-! ### Small states -/

/-- No key held, no key press, random byte 0. -/
def quiet : StepInput := { keyDown := Vector.replicate 16 false, keyPress := none, randByte := 0 }

/-- Key `k` held. -/
def holding (k : Key) : StepInput := { quiet with keyDown := (Vector.replicate 16 false).set k.val true }

/-- Reset, with the word `w` at 0x200 and one coming turn without ticks. -/
def atStart (w : Word) (input : StepInput := quiet) : State :=
  (State.reset.storeWord 0x200 w).offer { ticks := 0, input := input }

/-- `(x, V[x])` written one after another. -/
def withRegs (rs : List (Reg × Byte)) (s : State) : State := rs.foldl (fun s r => s.setReg r.1 r.2) s

/-- What `f` reads after one step. -/
def after {α : Type} (f : State → α) (s : State) : Option α :=
  match step s with
  | .next t => some (f t)
  | .fault _ => none
  | .refused _ => none

/-- PC, V1 and VF. -/
def v1vf (t : State) : Nat × Nat × Nat := (t.pc.toNat, (t.reg 1).toNat, (t.reg VF).toNat)

/-- PC, V3 and VF. -/
def v3vf (t : State) : Nat × Nat × Nat := (t.pc.toNat, (t.reg 3).toNat, (t.reg VF).toNat)

/-- The latch as `Fault{c, pc, word, addr}` of 95_test_vectors.md. -/
def latch (t : State) : Option (Nat × Nat × Option Word × Option Nat) :=
  t.fault.map (fun r => ((faultRegisters t.fault).cause.toNat, r.pc.toNat, r.word, r.addr))

/-! ### Control transfer -/

/-- 40_control_flow.md R101's example. -/
theorem test_ret : after (fun t => (t.pc.toNat, t.sp.val)) ((State.push 0x206 (atStart 0x00EE))) = some (0x206, 0) := by
  decide

/-- RET with SP = 0: Fault{3, 0x200, 0x00EE, none}. -/
theorem test_ret_underflow : after latch (atStart 0x00EE) = some (some (3, 0x200, some 0x00EE, none)) := by decide

/-- R102's example. -/
theorem test_jp : after (fun t => t.pc.toNat) (atStart 0x1234) = some 0x234 := by decide

/-- R103. -/
theorem test_call : after (fun t => (t.sp.val, t.stackTop.toNat, t.pc.toNat)) (atStart 0x2210) = some (1, 0x202, 0x210) := by
  decide

/-- 95_test_vectors.md P5: CALL with SP = 15 gives Fault{2, 0x200, 0x2200, none}. -/
theorem test_call_overflow :
    after latch { atStart 0x2200 with sp := 15 } = some (some (2, 0x200, some 0x2200, none)) := by decide

/-- R104's examples. -/
theorem test_se_imm : (after (fun t => t.pc.toNat) (withRegs [(3, 0x10)] (atStart 0x3310)),
    after (fun t => t.pc.toNat) (withRegs [(3, 0x10)] (atStart 0x3311))) = (some 0x204, some 0x202) := by decide

/-- R105's examples. -/
theorem test_sne_imm : (after (fun t => t.pc.toNat) (withRegs [(3, 0x10)] (atStart 0x4311)),
    after (fun t => t.pc.toNat) (withRegs [(3, 0x10)] (atStart 0x4310))) = (some 0x204, some 0x202) := by decide

/-- R106. -/
theorem test_se_reg : (after (fun t => t.pc.toNat) (withRegs [(1, 7), (2, 7)] (atStart 0x5120)),
    after (fun t => t.pc.toNat) (withRegs [(1, 7), (2, 8)] (atStart 0x5120))) = (some 0x204, some 0x202) := by decide

/-- R107. -/
theorem test_sne_reg : (after (fun t => t.pc.toNat) (withRegs [(1, 7), (2, 8)] (atStart 0x9120)),
    after (fun t => t.pc.toNat) (withRegs [(1, 7), (2, 7)] (atStart 0x9120))) = (some 0x204, some 0x202) := by decide

/-- R108's examples: V0, not V3 and not VF, is added. -/
theorem test_jp_v0 : (after (fun t => t.pc.toNat) (withRegs [(0, 0x10), (3, 1)] (atStart 0xB300)),
    after (fun t => t.pc.toNat) (withRegs [(0, 0xFF)] (atStart 0xBFFF))) = (some 0x310, some 0x10FE) := by decide

/-! ### Register loads and ALU -/

/-- 41_alu.md R121's example. -/
theorem test_ld_imm : after (fun t => (t.pc.toNat, (t.reg 10).toNat)) (atStart 0x6A42) = some (0x202, 0x42) := by decide

/-- R122's example: the carry is dropped and VF stays. -/
theorem test_add_imm_drops_carry : after (fun t => ((t.reg 2).toNat, (t.reg VF).toNat))
    (withRegs [(2, 0xF0), (15, 7)] (atStart 0x7220)) = some (0x10, 7) := by decide

/-- R123's example. -/
theorem test_ld_reg : after (fun t => ((t.reg 1).toNat, (t.reg 5).toNat)) (withRegs [(5, 0x99)] (atStart 0x8150)) =
    some (0x99, 0x99) := by decide

/-- R124's example; VF is not reset. -/
theorem test_or : after v1vf (withRegs [(1, 0x0F), (2, 0xF0), (15, 9)] (atStart 0x8121)) = some (0x202, 0xFF, 9) := by
  decide

/-- R125's example; VF is not reset. -/
theorem test_and : after v1vf (withRegs [(1, 0x3C), (2, 0x0F), (15, 9)] (atStart 0x8122)) = some (0x202, 0x0C, 9) := by
  decide

/-- R126's example; VF is not reset. -/
theorem test_xor : after v1vf (withRegs [(1, 0x3C), (2, 0x0F), (15, 9)] (atStart 0x8123)) = some (0x202, 0x33, 9) := by
  decide

/-- V2.10 and V2.11: the sums 255 and 256. -/
theorem test_add_carry_edge : (after v1vf (withRegs [(1, 0xFE), (2, 0x01)] (atStart 0x8124)),
    after v1vf (withRegs [(1, 0x80), (2, 0x80)] (atStart 0x8124))) = (some (0x202, 0xFF, 0), some (0x202, 0, 1)) := by
  decide

/-- V2.12: with x = F the result is kept. -/
theorem test_add_into_vf : after (fun t => (t.reg VF).toNat) (withRegs [(15, 0xF0), (1, 0x20)] (atStart 0x8F14)) =
    some 0x10 := by decide

/-- V2.13 and V2.14: borrow, and equal operands. -/
theorem test_sub : (after v1vf (withRegs [(1, 5), (2, 7)] (atStart 0x8125)),
    after v1vf (withRegs [(1, 7), (2, 7)] (atStart 0x8125))) = (some (0x202, 0xFE, 0), some (0x202, 0, 1)) := by decide

/-- V2.15: with y = F the operand is the old VF. -/
theorem test_sub_old_vf : after v1vf (withRegs [(1, 5), (15, 7)] (atStart 0x81F5)) = some (0x202, 0xFE, 0) := by decide

/-- V2.18: y is ignored. -/
theorem test_shr_ignores_y : after v3vf (withRegs [(3, 5), (10, 0xFF)] (atStart 0x83A6)) = some (0x202, 2, 1) := by decide

/-- V2.20: x = F. -/
theorem test_shr_vf : after (fun t => (t.reg VF).toNat) (withRegs [(15, 2)] (atStart 0x8F06)) = some 1 := by decide

/-- V2.21 and V2.22. -/
theorem test_subn : (after v1vf (withRegs [(1, 5), (2, 7)] (atStart 0x8127)),
    after v1vf (withRegs [(1, 7), (2, 5)] (atStart 0x8127))) = (some (0x202, 2, 1), some (0x202, 0xFE, 0)) := by decide

/-- V2.23. -/
theorem test_shl : after v3vf (withRegs [(3, 0x81)] (atStart 0x830E)) = some (0x202, 2, 1) := by decide

/-- V2.25: x = F. -/
theorem test_shl_vf : after (fun t => (t.reg VF).toNat) (withRegs [(15, 0x81)] (atStart 0x8F0E)) = some 2 := by decide

/-- V2.26. -/
theorem test_rnd : after (fun t => (t.reg 5).toNat) (atStart 0xC50F { quiet with randByte := 0xA7 }) = some 7 := by decide

/-! ### Index register and memory transfer -/

/-- V3.1. -/
theorem test_ld_i : after (fun t => (t.pc.toNat, t.i.toNat)) (atStart 0xA300) = some (0x202, 0x300) := by decide

/-- V3.2 and V3.3. -/
theorem test_add_i : (after (fun t => (t.i.toNat, (t.reg VF).toNat)) ((withRegs [(2, 0x20), (15, 7)] (atStart 0xF21E)).setI 0x0FF0),
    after (fun t => t.i.toNat) ((withRegs [(2, 1)] (atStart 0xF21E)).setI 0xFFFF)) = (some (0x1010, 7), some 0) := by decide

/-- V3.7 and V3.9. -/
theorem test_ld_font : (after (fun t => t.i.toNat) (withRegs [(0, 0x1A)] (atStart 0xF029)),
    after (fun t => t.i.toNat) (withRegs [(0, 0x0F)] (atStart 0xF029))) = (some 0x32, some 0x4B) := by decide

/-- V3.10. -/
theorem test_bcd : after (fun t => (Memory.readBytes t.mem 0x300 3, t.i.toNat)) ((withRegs [(5, 234)] (atStart 0xF533)).setI 0x300) =
    some ([2, 3, 4], 0x300) := by decide

/-- V3.14: a protected byte faults and nothing is written. -/
theorem test_bcd_protected : after latch ((withRegs [(5, 7)] (atStart 0xF533)).setI 0x1FF) =
      some (some (4, 0x200, some 0xF533, some 0x1FF)) ∧
    after (fun t => t.byte 0x200) ((withRegs [(5, 7)] (atStart 0xF533)).setI 0x1FF) = some 0xF5 := by decide

/-- V3.18: the range that ends at 0xFFF. -/
theorem test_store_to_the_end : after (fun t => Memory.readBytes t.mem 0xFFC 4)
    ((withRegs [(0, 1), (1, 2), (2, 3), (3, 4), (4, 5)] (atStart 0xF355)).setI 0xFFC) = some [1, 2, 3, 4] := by decide

/-- V3.17. -/
theorem test_store_past_the_end : after latch ((withRegs [(0, 1)] (atStart 0xF355)).setI 0xFFE) =
      some (some (4, 0x200, some 0xF355, some 0x1000)) ∧
    after (fun t => t.byte 0xFFE) ((withRegs [(0, 1)] (atStart 0xF355)).setI 0xFFE) = some 0 := by decide

/-- V3.20: glyph 0, with the spec's font. -/
theorem test_load_glyph : after (fun t => t.v.toList.take 6) (withRegs [(5, 0x77)] (atStart 0xF465)) =
    some [0xF0, 0x90, 0x90, 0x90, 0xF0, 0x77] := by decide

/-- V3.22. -/
theorem test_load_past_the_end : after latch ((atStart 0xFF65).setI 0xFF1) =
    some (some (4, 0x200, some 0xFF65, some 0x1000)) := by decide

/-! ### Display -/

/-- V4.1: here with pixel (column 63, row 31) on. -/
theorem test_cls : after (fun t => Display.pixel t.disp 31 63) { atStart 0x00E0 with disp := Display.toggle Display.clear 31 63 } =
    some false := by decide

/-- V4.5: the sprite 0xFF at column 62 wraps. -/
theorem test_drw_wraps : after (fun t => ([62, 63, 0, 5, 6].map (Display.pixel t.disp 0), (t.reg VF).toNat))
    (((withRegs [(0, 62)] (atStart 0xD011)).storeBytes 0x300 [0xFF]).setI 0x300) =
    some ([true, true, true, true, false], 0) := by decide

/-- V4.13: a collision, and bit 7 is leftmost. -/
theorem test_drw_collision : after (fun t => ([0, 1].map (Display.pixel t.disp 0), (t.reg VF).toNat))
    { ((atStart 0xD011).storeBytes 0x300 [0xC0]).setI 0x300 with disp := Display.toggle Display.clear 0 1 } =
    some ([true, false], 1) := by decide

/-! ### Keypad and timers -/

/-- V5.1 and V5.5. -/
theorem test_skp : (after (fun t => t.pc.toNat) (withRegs [(1, 5)] (atStart 0xE19E (holding 5))),
    after (fun t => t.pc.toNat) (withRegs [(1, 0x15)] (atStart 0xE19E (holding 5)))) = (some 0x204, some 0x202) := by decide

/-- V5.4 and V5.6. -/
theorem test_sknp : (after (fun t => t.pc.toNat) (withRegs [(1, 5)] (atStart 0xE1A1 (holding 5))),
    after (fun t => t.pc.toNat) (withRegs [(1, 0x15)] (atStart 0xE1A1 (holding 5)))) = (some 0x202, some 0x204) := by decide

/-- V5.7. -/
theorem test_ld_reg_dt : after (fun t => ((t.reg 3).toNat, t.dt.toNat)) ((atStart 0xF307).setDt 0x3C) = some (0x3C, 0x3C) := by
  decide

/-- V5.8: the event given with the entering step is not consumed. -/
theorem test_key_wait_entered : after (fun t => (t.run, t.kwTarget, t.pc.toNat, (t.reg 5).toNat))
    (atStart 0xF50A { quiet with keyPress := some 3 }) = some (.awaitingKey, 5, 0x200, 0) := by decide

/-- V5.9: the wait resolved into VF. -/
theorem test_key_wait_resolved : after (fun t => (t.run, t.pc.toNat, (t.reg VF).toNat))
    (((atStart 0xFF0A { quiet with keyPress := some 14 }).setKwTarget 15).setRun .awaitingKey) =
    some (.running, 0x202, 14) := by decide

/-- V5.11. -/
theorem test_ld_dt : after (fun t => t.dt.toNat) (withRegs [(4, 5)] (atStart 0xF415)) = some 5 := by decide

/-- V5.12. -/
theorem test_ld_st : after (fun t => t.st.toNat) (withRegs [(4, 0x1E)] (atStart 0xF418)) = some 0x1E := by decide

/-- V5.13 and V5.14. -/
theorem test_tick : ((tick ((State.reset.setDt 1).setSt 0)).dt.toNat, (tick ((State.reset.setDt 0).setSt 2)).st.toNat) = (0, 1) := by
  decide

/-- E7: the sixth tick leaves DT at 0; here as the six ticks before one step. -/
theorem test_ticks_before_a_step : after (fun t => t.dt.toNat)
    { (atStart 0x6000).setDt 5 with env := [{ ticks := 6, input := quiet }] } = some 0 := by decide

/-! ### Step cycle, reset and load -/

/-- V6.12: PC = 0xFFF. -/
theorem test_fetch_fault : after latch ((atStart 0).setPc 0xFFF) = some (some (4, 0xFFF, none, some 0x1000)) := by decide

/-- V7.4: an empty image, then a step. -/
theorem test_empty_image : after latch (State.reset.offer { ticks := 0, input := quiet }) =
    some (some (1, 0x200, some 0x0000, none)) := by decide

/-- V3.23 in one step: the word placed for the next fetch is the word it runs. -/
theorem test_with_fetch_word : after (fun t => (t.reg 10).toNat)
    ((State.reset.setPc 0x0FFF).withFetchWord 16 0x6A42) = some 0x42 := by decide

/-! ### Witnesses: a state and operands that meet a statement's hypotheses -/

/-- A halted state, as a step that met an illegal word left it. -/
def haltedState : State := (atStart 0).raise .decode (some 0) none

theorem witness_EncodingADecodedWordGivesItBack : decodeWord 0x8AB6 = some (.shr 10 11) := by decide

theorem witness_AWordDecodesExactlyWhenItMatchesOneRow :
    decodeWord 0x8AB6 = some (.shr 10 11) ∧ Instr.row (.shr 10 11) ∈ opcodeMap := by decide

theorem witness_LoadCopiesAnImageThatFitsAndRejectsALongerOne :
    (List.replicate 3584 (0xAA : Byte)).length ≤ 3584 ∧ 3584 < (List.replicate 3585 (0xAA : Byte)).length := by
  constructor <;> rw [List.length_replicate]
  decide

theorem witness_AStepRunsTheDecodedInstruction :
    (atStart 0x6A42).run = .running ∧ AtPc (atStart 0x6A42) (.ldImm 10 0x42) := ⟨rfl, by decide, rfl⟩

theorem witness_AStepRunsTheDecodedInstruction_at_the_last_word :
    AtPc ((State.reset.storeWord 0xFFE 0x1200).setPc 0xFFE) (.jp 0x200) := ⟨by decide, rfl⟩

theorem witness_AnIllegalWordTakesTheDecodeFault : (atStart 0x5121).run = .running ∧ (atStart 0x5121).pc.toNat ≤ 0xFFE ∧
    wordOfBytes ((atStart 0x5121).byte 0x200) ((atStart 0x5121).byte 0x201) = 0x5121 ∧ legalWord 0x5121 = false := by decide

theorem witness_AFetchPastMemoryTakesTheAddressFault : ((atStart 0).setPc 0xFFF).run = .running ∧
    0xFFE < ((atStart 0).setPc 0xFFF).pc.toNat ∧ 0xFFE < ((atStart 0).setPc 0x1000).pc.toNat := by decide

theorem witness_AWaitingStepOnlyTakesAKeyPress :
    ((atStart 0xF50A).setRun .awaitingKey).run = .awaitingKey ∧
      ((atStart 0xF50A).setRun .awaitingKey).input.keyPress = none ∧
      ((atStart 0xF50A { quiet with keyPress := some 15 }).setRun .awaitingKey).input.keyPress = some 15 := by decide

theorem witness_TheWaitLastsUntilAKeyPress :
    ∃ s : State, s.run = .awaitingKey ∧ s.env = [⟨3, quiet⟩, ⟨0, holding 9⟩] ++ [⟨0, { quiet with keyPress := some 12 }⟩] ∧
      ∀ u ∈ [(⟨3, quiet⟩ : Turn), ⟨0, holding 9⟩], u.input.keyPress = none :=
  ⟨{ (State.reset.setRun .awaitingKey) with
      env := [⟨3, quiet⟩, ⟨0, holding 9⟩, ⟨0, { quiet with keyPress := some 12 }⟩] }, rfl, rfl, by decide⟩

theorem witness_AHaltedStepChangesNothingAndReportsTheFault : haltedState.run = .halted := rfl

theorem witness_OnlyResetLeavesHalted :
    haltedState.run = .halted ∧ Op.reset ∉ [Op.tick, .step quiet, .load [0xAA]] ∧
      ∃ t, performAll [Op.tick, .step quiet, .load [0xAA]] haltedState = .next t := ⟨rfl, by decide, _, rfl⟩

theorem witness_ReturnPopsTheAddressOrUnderflows :
    ({ State.reset with sp := 1 } : State).sp ≠ 0 ∧ ({ State.reset with sp := 15 } : State).sp ≠ 0 ∧ State.reset.sp = 0 := by
  decide

theorem witness_JumpGoesToItsAddress : State.reset.pc.toNat = (0x200 : Addr12).toNat := rfl

theorem witness_CallPushesTheNextAddressOrOverflows :
    ({ State.reset with sp := 14 } : State).sp ≠ 15 ∧ ({ State.reset with sp := 15 } : State).sp = 15 := by decide

theorem witness_CallPushesTheNextAddressOrOverflows_other_entry : (3 : Fin 16) ≠ (State.push 0x202 State.reset).sp := by
  decide

theorem witness_ReturnComesBackAfterTheMatchingCall : ∃ t : State, ({ State.reset with sp := 14 } : State).sp ≠ 15 ∧
    exec (.call 0xFFF) { State.reset with sp := 14 } = .next t ∧ (t.setPc 0x300).sp = t.sp ∧ (t.setPc 0x300).stack = t.stack :=
  ⟨_, by decide, rfl, rfl, rfl⟩

theorem witness_RegisterSkipsCompareTheTwoRegisters : (1 : BitVec 4) ≠ 0 := by decide

theorem witness_IndexedJumpAddsV0Exactly :
    ∃ t, exec (.jpV0 0xFFF) State.reset = .next t ∧ 0xFFE < t.pc.toNat := ⟨_, rfl, by decide⟩

theorem witness_PlainRegisterWritesGiveTheirValues : (14 : Reg) ≠ VF ∧ (15 : Reg) = VF := by decide

theorem witness_BitwiseOperationsActBitByBit : (0 : Reg) ≠ VF := by decide

theorem witness_AddAndSubtractGiveResultAndFlag : (14 : Reg) ≠ VF := by decide

theorem witness_ShiftsGiveResultAndTheBitShiftedOut : (14 : Reg) ≠ VF := by decide

theorem witness_BcdStoresTheThreeDigits : (0x200 ≤ (State.reset.setI 0x200).i.toNat ∧ (State.reset.setI 0x200).i.toNat + 2 ≤ 0xFFF) ∧
    0x200 ≤ (State.reset.setI 0xFFD).i.toNat ∧ (State.reset.setI 0xFFD).i.toNat + 2 ≤ 0xFFF := by decide

theorem witness_StoreRegistersCopiesThemToMemory : 0x200 ≤ (State.reset.setI 0xFF0).i.toNat ∧
    (State.reset.setI 0xFF0).i.toNat + (15 : Reg).val ≤ 0xFFF ∧ (0 : Reg) ≤ 15 ∧ (15 : Reg) ≤ 15 := by decide

theorem witness_LoadRegistersCopiesThemFromMemory : (State.reset.setI 0xFF0).i.toNat + (15 : Reg).val ≤ 0xFFF ∧
    State.reset.i.toNat + (3 : Reg).val ≤ 0xFFF ∧ (3 : Reg) ≤ 3 ∧ (3 : Reg) < 4 := by decide

/-- The load finds I and the stored bytes as they were, though the byte below them has changed. -/
theorem witness_LoadRestoresTheStoredRegisters : ∃ t u : State, exec (.storeRegs 15) (State.reset.setI 0xFF0) = .next t ∧
    u.i = (State.reset.setI 0xFF0).i ∧
    (∀ k : Reg, k ≤ 15 → u.byte (0xFF0 + k.val) = t.byte (0xFF0 + k.val)) ∧ u.byte 0xFEF ≠ t.byte 0xFEF := by
  refine ⟨_, State.storeBytes 0xFEF [7] _, rfl, rfl, fun k _ => storeBytes_byte_outside (by simp), ?_⟩
  decide

theorem witness_ABadRangeFaultsAtItsLowestAddressAndMovesNothing :
    (2 < 3 ∧ AccessForbidden .write ((State.reset.setI 0xFFE).i.toNat + 2) ∧
      ∀ j < 2, ¬AccessForbidden .write ((State.reset.setI 0xFFE).i.toNat + j)) ∧
    (0 < 3 ∧ AccessForbidden .write ((State.reset.setI 0x1FF).i.toNat + 0) ∧
      ∀ j < 0, ¬AccessForbidden .write ((State.reset.setI 0x1FF).i.toNat + j)) ∧
    (1 < 2 ∧ AccessForbidden .read ((State.reset.setI 0xFFF).i.toNat + 1) ∧
      ∀ j < 1, ¬AccessForbidden .read ((State.reset.setI 0xFFF).i.toNat + j)) := by
  refine ⟨⟨by decide, .inl (by decide), fun j hj => ?_⟩, ⟨by decide, .inr (by decide), fun j hj => absurd hj (by omega)⟩,
    by decide, by show _ > _; decide, fun j hj => ?_⟩
  · show ¬(4094 + j > 0xFFF ∨ 4094 + j ≤ 0x1FF)
    omega
  · show ¬(4095 + j > 0xFFF)
    omega

/-- Over both bytes: Fx55 with x = 1 at 0x202. -/
theorem witness_AStoreIsSeenByTheVeryNextFetch : 0x200 ≤ (State.reset.setI 0x202).i.toNat ∧
    (State.reset.setI 0x202).i.toNat + ((State.reset.setI 0x202).regsUpTo 1).length ≤ 0x1000 ∧
    ((State.reset.setI 0x202).pc + 2).toNat ≤ 0xFFE ∧
    0 < ((State.reset.setI 0x202).regsUpTo 1).length ∧ 1 < ((State.reset.setI 0x202).regsUpTo 1).length ∧
    ((State.reset.setI 0x202).pc + 2).toNat = (State.reset.setI 0x202).i.toNat + 0 ∧
    ((State.reset.setI 0x202).pc + 2).toNat + 1 = (State.reset.setI 0x202).i.toNat + 1 := by
  rw [regsUpTo_length]
  decide

/-- Over the second byte only, the first kept: Fx55 with x = 0 at 0x203. -/
theorem witness_AStoreIsSeenByTheVeryNextFetch_second : 0x200 ≤ (State.reset.setI 0x203).i.toNat ∧
    (State.reset.setI 0x203).i.toNat + ((State.reset.setI 0x203).regsUpTo 0).length ≤ 0x1000 ∧
    ((State.reset.setI 0x203).pc + 2).toNat ≤ 0xFFE ∧ 0 < ((State.reset.setI 0x203).regsUpTo 0).length ∧
    ((State.reset.setI 0x203).pc + 2).toNat + 1 = (State.reset.setI 0x203).i.toNat + 0 ∧
    ¬((State.reset.setI 0x203).i.toNat ≤ ((State.reset.setI 0x203).pc + 2).toNat ∧
      ((State.reset.setI 0x203).pc + 2).toNat <
        (State.reset.setI 0x203).i.toNat + ((State.reset.setI 0x203).regsUpTo 0).length) := by
  rw [regsUpTo_length]
  decide

/-- Over the first byte only, the second kept: the third digit of Fx33 at 0x200. -/
theorem witness_AStoreIsSeenByTheVeryNextFetch_first : 0x200 ≤ (State.reset.setI 0x200).i.toNat ∧
    (State.reset.setI 0x200).i.toNat + (bcdDigits 0xEA).length ≤ 0x1000 ∧
    ((State.reset.setI 0x200).pc + 2).toNat ≤ 0xFFE ∧ 2 < (bcdDigits 0xEA).length ∧
    ((State.reset.setI 0x200).pc + 2).toNat = (State.reset.setI 0x200).i.toNat + 2 ∧
    ¬((State.reset.setI 0x200).i.toNat ≤ ((State.reset.setI 0x200).pc + 2).toNat + 1 ∧
      ((State.reset.setI 0x200).pc + 2).toNat + 1 <
        (State.reset.setI 0x200).i.toNat + (bcdDigits 0xEA).length) := by decide

/-- V3.23's word, stored over one byte only: with I = 0x203 and V0 = 0x34 the word at 0x202 is fetched as 0x0034. -/
theorem test_store_over_one_byte : after (fun t => match fetch t with | .ok w => w.toNat | .error _ => 0)
    ((withRegs [(0, 0x34)] (atStart 0xF055)).setI 0x203) = some 0x0034 := by decide

theorem witness_ClearTurnsEveryPixelOff : ∀ row < 32, ∀ col < 64, Display.pixel State.reset.disp row col = false := by
  intro row _ col _
  simp [Display.pixel, State.reset]

/-- The sprite 0x80 at 0x300, V0 = V1 = 0. -/
def dot : State := (atStart 0xD011 |>.storeBytes 0x300 [0x80]).setI 0x300

theorem witness_TheDrawIsOneParallelXor : ((1 : Fin 16).val = 0 ∨ dot.i.toNat + (1 : Fin 16).val ≤ 0x1000) ∧
    ((0 : Fin 16).val = 0 ∨ (dot.setI 0xFFFF).i.toNat + (0 : Fin 16).val ≤ 0x1000) ∧
    ((1 : Fin 16).val = 0 ∨ (dot.setI 0xFFF).i.toNat + (1 : Fin 16).val ≤ 0x1000) := by decide

theorem witness_TheDrawIsOneParallelXor_covered : spriteCovers dot 0 1 1 0 0 ∧
    Display.pixel ({ dot with disp := Display.toggle Display.clear 0 0 } : State).disp 0 0 = true := by
  refine ⟨⟨0, by decide, 0, by decide, by decide, by decide, by decide⟩, by decide⟩

theorem witness_TheDrawIsOneParallelXor_uncovered : ¬spriteCovers dot 0 1 1 1 0 := by
  rintro ⟨r, hr, c, _, _, h, _⟩
  have h0 : (dot.reg 1).toNat = 0 := by decide
  omega

theorem witness_DrawingTwiceRestoresTheDisplay : ∃ t u : State, exec (.drw 0 1 1) dot = .next t ∧ u.disp = t.disp ∧
    u.i = dot.i ∧ u.reg 0 = dot.reg 0 ∧ u.reg 1 = dot.reg 1 ∧ ∀ a, u.byte a = dot.byte a := by
  refine ⟨_, { dot with disp := (dot.blit 0 1 1).disp }, rfl, ?_, rfl, rfl, rfl, fun _ => rfl⟩
  decide

/-- The counterexample to the section's last claim: the pixel was on before the first draw. -/
theorem witness_TheSecondDrawCollidesWhateverTheDisplayHeld :
    (0 : Reg) ≠ VF ∧ (1 : Reg) ≠ VF ∧ dot.i.toNat + (1 : Fin 16).val ≤ 0x1000 ∧
      (∃ r < (1 : Fin 16).val, ∃ c < 8, (dot.byte (dot.i.toNat + r)).getLsbD c = true) ∧
      ∃ t, exec (.drw 0 1 1) { dot with disp := Display.toggle Display.clear 0 0 } = .next t ∧
        ∃ w, exec (.drw 0 1 1) t = .next w :=
  ⟨by decide, by decide, by decide, ⟨0, by decide, 7, by decide, by decide⟩, _, rfl, _, rfl⟩

theorem witness_KeySkipsFollowTheKeyState : ((withRegs [(1, 15)] (atStart 0)).reg 1).toNat = (15 : Key).val ∧
    0xF < ((withRegs [(1, 16)] (atStart 0)).reg 1).toNat := by decide

theorem witness_DelayTimerIsReadAndSet : (14 : Reg) ≠ VF ∧ (atStart 0).reg 4 = 0 := by decide

theorem witness_SoundTimerIsSetAndNeverReadBack : ∀ x, Instr.ldRegDt 3 ≠ .ldStReg x := by decide

theorem witness_InputsAreReadOnlyByTheirInstructions :
    ((∀ x, Instr.ldRegKey 3 ≠ .skp x ∧ Instr.ldRegKey 3 ≠ .sknp x) ∨ quiet.keyDown = (holding 3).keyDown) ∧
      ((∀ x kk, Instr.ldRegKey 3 ≠ .rnd x kk) ∨ quiet.randByte = (holding 3).randByte) := by
  exact ⟨.inl fun x => ⟨nofun, nofun⟩, .inr rfl⟩

theorem witness_ControlTransfersChangeOnlyPcAndTheStack :
    (∃ t, ({ State.reset with sp := 1 } : State).sp ≠ 0 ∧ exec .ret { State.reset with sp := 1 } = .next t) ∧
      (∃ t, ({ State.reset with sp := 14 } : State).sp ≠ 15 ∧ exec (.call 0x300) { State.reset with sp := 14 } = .next t) ∧
      (∃ t, exec (.jp 0x300) State.reset = .next t) ∧ (∃ t, exec (.seReg 1 2) State.reset = .next t) ∧
      ∃ t, exec (.skp 1) State.reset = .next t :=
  ⟨⟨_, by decide, rfl⟩, ⟨_, by decide, rfl⟩, ⟨_, rfl⟩, ⟨_, rfl⟩, _, rfl⟩

theorem witness_PlainRegisterWritesChangeOnlyTheirRegister :
    (∃ t, exec (.ldImm 3 1) State.reset = .next t) ∧ (∃ t, exec (.xor 15 2) State.reset = .next t) ∧
      ∃ t, exec (.ldRegDt 3) State.reset = .next t := ⟨⟨_, rfl⟩, ⟨_, rfl⟩, _, rfl⟩

theorem witness_FlagWritingOperationsChangeOnlyTheirRegisterAndVf :
    (∃ t, exec (.add 15 1) State.reset = .next t) ∧ ∃ t, exec (.shl 3 1) State.reset = .next t := ⟨⟨_, rfl⟩, _, rfl⟩

theorem witness_IndexTimerAndKeyWaitWritesChangeOnlyTheirs :
    (∃ t, exec (.ldI 0xFFF) State.reset = .next t) ∧ (∃ t, exec (.ldFont 1) State.reset = .next t) ∧
      (∃ t, exec (.addI 1) State.reset = .next t) ∧ (∃ t, exec (.ldDtReg 1) State.reset = .next t) ∧
      (∃ t, exec (.ldStReg 1) State.reset = .next t) ∧ ∃ t, exec (.ldRegKey 1) State.reset = .next t :=
  ⟨⟨_, rfl⟩, ⟨_, rfl⟩, ⟨_, rfl⟩, ⟨_, rfl⟩, ⟨_, rfl⟩, _, rfl⟩

theorem witness_StoresChangeOnlyTheirBytes : 0x200 ≤ (State.reset.setI 0xFF0).i.toNat ∧
    (State.reset.setI 0xFF0).i.toNat + 2 ≤ 0xFFF ∧ (State.reset.setI 0xFF0).i.toNat + (15 : Reg).val ≤ 0xFFF ∧
    (∃ t, exec (.ldBcd 15) (State.reset.setI 0xFF0) = .next t) ∧ ∃ t, exec (.storeRegs 15) (State.reset.setI 0xFF0) = .next t :=
  ⟨by decide, by decide, by decide, ⟨_, rfl⟩, _, rfl⟩

theorem witness_LoadRegistersChangesOnlyItsRegisters : (State.reset.setI 0xFF0).i.toNat + (15 : Reg).val ≤ 0xFFF ∧
    ∃ t, exec (.loadRegs 15) (State.reset.setI 0xFF0) = .next t := ⟨by decide, _, rfl⟩

theorem witness_DisplayInstructionsChangeOnlyTheDisplayAndVf : (∃ t, exec .cls State.reset = .next t) ∧
    dot.i.toNat + (1 : Fin 16).val ≤ 0x1000 ∧ ∃ t, exec (.drw 0 1 1) dot = .next t := ⟨⟨_, rfl⟩, by decide, _, rfl⟩

theorem witness_FaultsArePrecise :
    ∃ t, exec .ret State.reset = .next t ∧ State.reset.run ≠ .halted ∧ t.run = .halted := ⟨_, rfl, by decide, rfl⟩

theorem witness_OnlyTheirInstructionsChangeMemoryDisplayIndexAndStack :
    (∃ t, step ((withRegs [(0, 9)] (atStart 0xF055)).setI 0x300) = .next t ∧ t.byte 0x300 ≠ 0) ∧
      (∃ t, step dot = .next t ∧ t.disp ≠ dot.disp) ∧ (∃ t, step (atStart 0xA300) = .next t ∧ t.i ≠ (atStart 0xA300).i) ∧
      ∃ t, step (atStart 0x2300) = .next t ∧ t.sp ≠ (atStart 0x2300).sp ∧ t.stack ≠ (atStart 0x2300).stack :=
  ⟨⟨_, rfl, by decide⟩, ⟨_, rfl, by decide⟩, ⟨_, rfl, by decide⟩, _, rfl, by decide, by decide⟩

theorem witness_ASelfJumpRunsForEver : (atStart 0x1200).run = .running ∧
    (atStart 0x1200).pc.toNat = (0x200 : Addr12).toNat ∧ AtPc (atStart 0x1200) (.jp 0x200) := ⟨rfl, rfl, by decide, rfl⟩

/-- 10_state.md R37's reset column, and the same registers after an underflow: code 3 at 0x200. -/
theorem test_fault_registers : State.reset.output.faultRegisters = { cause := 0, pc := 0, word := none, addr := none } ∧
    after (fun t => t.output.faultRegisters) (atStart 0x00EE) =
      some { cause := 3, pc := 0x200, word := some 0x00EE, addr := none } := by decide

theorem inv_haltedState : Inv haltedState := by
  refine ⟨by decide, fun a ha => ?_, by decide, by decide, by decide, by decide, by decide, ?_⟩
  · exact storeBytes_byte_outside (by simp; omega)
  · intro r h
    cases h
    exact ⟨rfl, ⟨_, rfl, by decide⟩, rfl⟩

theorem witness_FaultRegistersShowTheLatchAndHoldLegalValues : Inv haltedState ∧ haltedState.run = .halted ∧
    State.reset.fault = none ∧
    (State.reset.raise .address none (some 0x1000)).output.faultRegisters.addr = some 0x1000 :=
  ⟨inv_haltedState, rfl, rfl, rfl⟩

/-- The invariant on a state that is not the reset state: halted with a lawful latch. -/
theorem witness_EveryStepKeepsTheInvariant : ∃ s t, Inv s ∧ step s = .next t ∧ s ≠ State.reset :=
  ⟨haltedState, _, inv_haltedState, rfl, by decide⟩

/-- Both kinds of self-jump at 0x200, and an instruction that is neither. -/
theorem witness_TheInstructionsThatChangeNothingAreTheSelfJumps : State.reset.run = .running ∧
    State.reset.pc.toNat = (0x200 : Addr12).toNat ∧ (withRegs [(0, 0xFF)] State.reset).run = .running ∧
    (withRegs [(0, 0xFF)] State.reset).pc.toNat =
      (0x101 : Addr12).toNat + ((withRegs [(0, 0xFF)] State.reset).reg 0).toNat := by decide

/-- R108: the word 0xB101 at 0x200 with V0 = 0xFF jumps to itself. -/
theorem test_jp_v0_to_itself : after (fun t => t.pc.toNat) (withRegs [(0, 0xFF)] (atStart 0xB101)) = some 0x200 := by decide

end Sys2Proof.Tests
end

section
/-! SUPPORT. A decoded instruction has the word it was decoded from (30_encoding.md R76, R82), and from this: when a mask
and a pattern give exactly the words of a shape of instructions. -/

namespace Sys2Proof

/-! ### A word with known fields -/

theorem formA_of_op {w : Word} {op : BitVec 4} (hop : fieldOp w = op) : formA op (fieldNnn w) = w :=
  hop ▸ formA_fields w

theorem formXK_of_op {w : Word} {op : BitVec 4} (hop : fieldOp w = op) : formXK op (fieldX w) (fieldKk w) = w :=
  hop ▸ formXK_fields w

theorem formXK_of_op_kk {w : Word} {op : BitVec 4} {kk : Byte} (hop : fieldOp w = op) (hkk : fieldKk w = kk) :
    formXK op (fieldX w) kk = w :=
  hkk ▸ formXK_of_op hop

theorem formXYN_of_op {w : Word} {op : BitVec 4} (hop : fieldOp w = op) :
    formXYN op (fieldX w) (fieldY w) (fieldN w) = w :=
  hop ▸ formXYN_fields w

theorem formXYN_of_op_n {w : Word} {op n : BitVec 4} (hop : fieldOp w = op) (hn : fieldN w = n) :
    formXYN op (fieldX w) (fieldY w) n = w :=
  hn ▸ formXYN_of_op hop

/-! ### The encoder after the decoder -/

theorem encode_of_decodeRow8 {w : Word} {i : Instr} (hop : fieldOp w = 0x8) (h : decodeRow8 w = some i) :
    encode i = w := by
  unfold decodeRow8 at h
  iterate 9
    split at h
    · next hn => cases h; exact formXYN_of_op_n hop hn
  cases h

theorem encode_of_decodeRowE {w : Word} {i : Instr} (hop : fieldOp w = 0xE) (h : decodeRowE w = some i) :
    encode i = w := by
  unfold decodeRowE at h
  iterate 2
    split at h
    · next hkk => cases h; exact formXK_of_op_kk hop hkk
  cases h

theorem encode_of_decodeRowF {w : Word} {i : Instr} (hop : fieldOp w = 0xF) (h : decodeRowF w = some i) :
    encode i = w := by
  unfold decodeRowF at h
  iterate 9
    split at h
    · next hkk => cases h; exact formXK_of_op_kk hop hkk
  cases h

/-- The decoder keeps every bit of a legal word (30_encoding.md R82); the cases are the decoder's own, by op from
0 to F. -/
theorem encode_of_decodeWord {w : Word} {i : Instr} (h : decodeWord w = some i) : encode i = w := by
  unfold decodeWord at h
  obtain ⟨-, h⟩ | ⟨_, h⟩ := ite_eq_iff.mp h
  · obtain ⟨hw, h⟩ | ⟨_, h⟩ := ite_eq_iff.mp h
    · cases h; exact hw.symm
    · obtain ⟨hw, h⟩ | ⟨_, h⟩ := ite_eq_iff.mp h
      · cases h; exact hw.symm
      · cases h
  iterate 2 -- 1nnn, 2nnn
    obtain ⟨hop, h⟩ | ⟨_, h⟩ := ite_eq_iff.mp h
    · cases h; exact formA_of_op hop
  iterate 2 -- 3xkk, 4xkk
    obtain ⟨hop, h⟩ | ⟨_, h⟩ := ite_eq_iff.mp h
    · cases h; exact formXK_of_op hop
  obtain ⟨hop, h⟩ | ⟨_, h⟩ := ite_eq_iff.mp h
  · obtain ⟨hn, h⟩ | ⟨_, h⟩ := ite_eq_iff.mp h
    · cases h; exact formXYN_of_op_n hop hn
    · cases h
  iterate 2 -- 6xkk, 7xkk
    obtain ⟨hop, h⟩ | ⟨_, h⟩ := ite_eq_iff.mp h
    · cases h; exact formXK_of_op hop
  obtain ⟨hop, h⟩ | ⟨_, h⟩ := ite_eq_iff.mp h
  · exact encode_of_decodeRow8 hop h
  obtain ⟨hop, h⟩ | ⟨_, h⟩ := ite_eq_iff.mp h
  · obtain ⟨hn, h⟩ | ⟨_, h⟩ := ite_eq_iff.mp h
    · cases h; exact formXYN_of_op_n hop hn
    · cases h
  iterate 2 -- Annn, Bnnn
    obtain ⟨hop, h⟩ | ⟨_, h⟩ := ite_eq_iff.mp h
    · cases h; exact formA_of_op hop
  obtain ⟨hop, h⟩ | ⟨_, h⟩ := ite_eq_iff.mp h
  · cases h; exact formXK_of_op hop
  obtain ⟨hop, h⟩ | ⟨_, h⟩ := ite_eq_iff.mp h
  · cases h; exact formXYN_of_op hop
  obtain ⟨hop, h⟩ | ⟨_, h⟩ := ite_eq_iff.mp h
  · exact encode_of_decodeRowE hop h
  · exact encode_of_decodeRowF (by bv_omega) h

end Sys2Proof

namespace Sys2Proof.Machine

/-! ### The words of a shape of instructions -/

/-- Mask and pattern give exactly the words of the shape, when every word that matches decodes to the shape and every
instruction of the shape has a word that matches. -/
theorem encodedBy_of_decode_of_encode {mask pattern : Word} {shape : Instr → Prop}
    (hdec : ∀ w, w &&& mask = pattern → ∃ i, decodeWord w = some i ∧ shape i)
    (henc : ∀ i, shape i → encode i &&& mask = pattern) : EncodedBy mask pattern shape := by
  intro w
  constructor
  · exact hdec w
  · rintro ⟨i, hi, hshape⟩
    exact encode_of_decodeWord hi ▸ henc i hshape

/-- The same for a row whose fixed field is the op alone. -/
theorem encodedBy_op {op : BitVec 4} {shape : Instr → Prop}
    (hdec : ∀ w, fieldOp w = op → ∃ i, decodeWord w = some i ∧ shape i)
    (henc : ∀ i, shape i → fieldOp (encode i) = op) : EncodedBy 0xF000 (formA op 0) shape :=
  encodedBy_of_decode_of_encode (fun w hw => hdec w ((masked_A_iff w op).mp hw))
    (fun i hi => (masked_A_iff (encode i) op).mpr (henc i hi))

end Sys2Proof.Machine
end

section
/-! PROOFS. The jumps, the call and the return, and the skips on a byte (40_control_flow.md). -/

namespace Sys2Proof.Machine

/-! ### Which words they are -/

theorem encodedBy_ret : EncodedBy 0xFFFF 0x00EE (· = .ret) := by
  refine encodedBy_of_decode_of_encode (fun w hw => ?_) ?_
  · have hmask : w &&& 0xFFFF = w := BitVec.and_allOnes
    obtain rfl : w = 0x00EE := hmask.symm.trans hw
    exact ⟨.ret, rfl, rfl⟩
  · rintro i rfl
    rfl

theorem encodedBy_jp : EncodedBy 0xF000 0x1000 (∃ nnn, · = .jp nnn) := by
  refine encodedBy_op (op := 0x1) (fun w hop => ?_) ?_
  · exact ⟨.jp (fieldNnn w), by simp [decodeWord, hop], _, rfl⟩
  · rintro i ⟨nnn, rfl⟩
    exact fieldOp_formA 0x1 nnn

theorem encodedBy_call : EncodedBy 0xF000 0x2000 (∃ nnn, · = .call nnn) := by
  refine encodedBy_op (op := 0x2) (fun w hop => ?_) ?_
  · exact ⟨.call (fieldNnn w), by simp [decodeWord, hop], _, rfl⟩
  · rintro i ⟨nnn, rfl⟩
    exact fieldOp_formA 0x2 nnn

theorem encodedBy_seImm : EncodedBy 0xF000 0x3000 (∃ x kk, · = .seImm x kk) := by
  refine encodedBy_op (op := 0x3) (fun w hop => ?_) ?_
  · exact ⟨.seImm (fieldX w) (fieldKk w), by simp [decodeWord, hop], _, _, rfl⟩
  · rintro i ⟨x, kk, rfl⟩
    exact fieldOp_formXK 0x3 x kk

theorem encodedBy_sneImm : EncodedBy 0xF000 0x4000 (∃ x kk, · = .sneImm x kk) := by
  refine encodedBy_op (op := 0x4) (fun w hop => ?_) ?_
  · exact ⟨.sneImm (fieldX w) (fieldKk w), by simp [decodeWord, hop], _, _, rfl⟩
  · rintro i ⟨x, kk, rfl⟩
    exact fieldOp_formXK 0x4 x kk

theorem encodedBy_jpV0 : EncodedBy 0xF000 0xB000 (∃ nnn, · = .jpV0 nnn) := by
  refine encodedBy_op (op := 0xB) (fun w hop => ?_) ?_
  · exact ⟨.jpV0 (fieldNnn w), by simp [decodeWord, hop], _, rfl⟩
  · rintro i ⟨nnn, rfl⟩
    exact fieldOp_formA 0xB nnn

/-! ### What they do, one equation per case -/

theorem exec_ret_of_sp_eq_zero {s : State} (h : s.sp = 0) :
    exec .ret s = .next (s.raise .stackUnderflow (some (encode .ret)) none) :=
  congrArg Host.Outcome.next (if_pos h)

theorem exec_ret_of_sp_ne_zero {s : State} (h : s.sp ≠ 0) : exec .ret s = .next (s.pop.setPc s.stackTop) :=
  congrArg Host.Outcome.next (if_neg h)

theorem exec_call_of_sp_eq_top {nnn : Addr12} {s : State} (h : s.sp = 15) :
    exec (.call nnn) s = .next (s.raise .stackOverflow (some (encode (.call nnn))) none) :=
  congrArg Host.Outcome.next (if_pos h)

theorem exec_call_of_sp_ne_top {nnn : Addr12} {s : State} (h : s.sp ≠ 15) :
    exec (.call nnn) s = .next ((s.push (s.pc + 2)).setPc (addressOperand nnn)) :=
  congrArg Host.Outcome.next (if_neg h)

theorem exec_jp (nnn : Addr12) (s : State) : exec (.jp nnn) s = .next (s.setPc (addressOperand nnn)) := rfl

theorem exec_jpV0 (nnn : Addr12) (s : State) :
    exec (.jpV0 nnn) s = .next (s.setPc (indexedTarget nnn (s.reg 0))) := rfl

theorem exec_seImm (x : Reg) (kk : Byte) (s : State) :
    exec (.seImm x kk) s = .next (s.skipIf (s.reg x == kk)) := rfl

theorem exec_sneImm (x : Reg) (kk : Byte) (s : State) :
    exec (.sneImm x kk) s = .next (s.skipIf (s.reg x != kk)) := rfl

/-! ### The stack, the faults and the skip -/

/-- An entry other than the one pushed is as before (10_state.md R28). -/
theorem push_stack_other {a : Word} {s : State} {j : Fin 16} (h : j ≠ s.sp + 1) :
    (s.push a).stack[j.val] = s.stack[j.val] :=
  Vector.getElem_set_ne (s.sp + 1).isLt j.isLt fun e => h (Fin.ext e.symm)

/-- Raising a fault halts the machine with that cause latched and changes nothing else (60_exceptions.md R221). -/
theorem raise_halts_with_cause (c : FaultCause) (w : Option Word) (a : Option Nat) (s : State) :
    (s.raise c w a).run = .halted ∧ (∃ r, (s.raise c w a).fault = some r ∧ r.cause = c) ∧
      ChangesOnly [.run, .fault] s (s.raise c w a) :=
  ⟨rfl, ⟨_, rfl, rfl⟩, changesOnly_raise c w a s⟩

theorem raisesNothing_setPc (a : Word) (s : State) : RaisesNothing s (s.setPc a) := ⟨rfl, rfl⟩

@[simp] theorem skipIf_reg (c : Bool) (s : State) (r : Reg) : (s.skipIf c).reg r = s.reg r := rfl

theorem raisesNothing_skipIf (c : Bool) (s : State) : RaisesNothing s (s.skipIf c) := raisesNothing_setPc _ s

theorem skipIf_eq_pc_toNat (a b : Byte) (s : State) :
    (s.skipIf (a == b)).pc.toNat = (s.pc.toNat + if a = b then 4 else 2) % 65536 := by
  simp [skipIf_pc_toNat]

theorem skipIf_ne_pc_toNat (a b : Byte) (s : State) :
    (s.skipIf (a != b)).pc.toNat = (s.pc.toNat + if a = b then 2 else 4) % 65536 := by
  simp [skipIf_pc_toNat]

/-! ### The obligations -/

/-- Settles O17: the two cases of R101 on SP. -/
theorem returnPopsTheAddressOrUnderflows : Obligations.ReturnPopsTheAddressOrUnderflows := by
  refine ⟨encodedBy_ret, fun s => ⟨fun hsp => ?_, fun hsp => ?_⟩⟩
  · rw [exec_ret_of_sp_ne_zero hsp, completesWith_next]
    exact ⟨rfl, Fin.val_sub_one_of_ne_zero hsp, rfl, rfl, rfl, rfl⟩
  · rw [exec_ret_of_sp_eq_zero hsp, completesWith_next]
    exact raise_halts_with_cause _ _ _ s

/-- Settles O19: the two cases of R103 on SP. -/
theorem callPushesTheNextAddressOrOverflows : Obligations.CallPushesTheNextAddressOrOverflows := by
  refine ⟨encodedBy_call, fun nnn s => ⟨fun hsp => ?_, fun hsp => ?_⟩⟩
  · rw [exec_call_of_sp_ne_top hsp, completesWith_next]
    have hpushed : (s.push (s.pc + 2)).stack[(s.sp + 1).val].toNat = (s.pc.toNat + 2) % 65536 := by
      simp [BitVec.toNat_add]
    exact ⟨sp_succ_val hsp, hpushed, fun j hj => push_stack_other hj, addressOperand_toNat nnn, rfl, rfl, rfl⟩
  · rw [exec_call_of_sp_eq_top hsp, completesWith_next]
    exact raise_halts_with_cause _ _ _ s

/-- Settles O18: only PC is written, and a jump to PC writes PC itself. -/
theorem jumpGoesToItsAddress : Obligations.JumpGoesToItsAddress := by
  refine ⟨encodedBy_jp, fun nnn s => ?_⟩
  rw [exec_jp, completesWith_next]
  refine ⟨addressOperand_toNat nnn, rfl, raisesNothing_setPc _ s, fun hself => ?_⟩
  have htarget : addressOperand nnn = s.pc := BitVec.eq_of_toNat_eq ((addressOperand_toNat nnn).trans hself.symm)
  rw [htarget]
  rfl

/-- Settles O21: both skips are the skip class on a comparison (30_encoding.md R78). -/
theorem immediateSkipsCompareWithTheByte : Obligations.ImmediateSkipsCompareWithTheByte := by
  refine ⟨encodedBy_seImm, encodedBy_sneImm, fun x kk s => ⟨?_, ?_⟩⟩
  · rw [exec_seImm, completesWith_next]
    exact ⟨skipIf_eq_pc_toNat _ _ s, skipIf_reg _ s VF, raisesNothing_skipIf _ s⟩
  · rw [exec_sneImm, completesWith_next]
    exact ⟨skipIf_ne_pc_toNat _ _ s, skipIf_reg _ s VF, raisesNothing_skipIf _ s⟩

/-- Settles O23: the target is the exact sum, and a fetch above 0xFFE faults (20_memory.md R55). -/
theorem indexedJumpAddsV0Exactly : Obligations.IndexedJumpAddsV0Exactly := by
  refine ⟨encodedBy_jpV0, fun nnn s => ?_⟩
  rw [exec_jpV0, completesWith_next]
  exact ⟨indexedTarget_toNat nnn (s.reg 0), rfl, raisesNothing_setPc _ s,
    fun hpast => ⟨_, (fetch_error_iff _ _).mpr ⟨hpast, rfl⟩⟩⟩

end Sys2Proof.Machine
end

section
/-! PROOFS. The loads of a register and the add of a byte, which write one register and no flag (41_alu.md). -/

namespace Sys2Proof.Machine

/-! ### Which words they are -/

/-- As `encodedBy_op`, for a row whose fixed fields are the op and the minor opcode n. -/
theorem encodedBy_op_n {op n : BitVec 4} {shape : Instr → Prop}
    (hdec : ∀ w, fieldOp w = op → fieldN w = n → ∃ i, decodeWord w = some i ∧ shape i)
    (henc : ∀ i, shape i → fieldOp (encode i) = op ∧ fieldN (encode i) = n) :
    EncodedBy 0xF00F (formXYN op 0 0 n) shape := by
  refine encodedBy_of_decode_of_encode (fun w hw => ?_) (fun i hi => (masked_XYN_iff (encode i) op n).mpr (henc i hi))
  obtain ⟨hop, hn⟩ := (masked_XYN_iff w op n).mp hw
  exact hdec w hop hn

theorem encodedBy_ldImm : EncodedBy 0xF000 0x6000 (∃ x kk, · = .ldImm x kk) := by
  refine encodedBy_op (op := 0x6) (fun w hop => ?_) ?_
  · exact ⟨.ldImm (fieldX w) (fieldKk w), by simp [decodeWord, hop], _, _, rfl⟩
  · rintro i ⟨x, kk, rfl⟩
    exact fieldOp_formXK 0x6 x kk

theorem encodedBy_addImm : EncodedBy 0xF000 0x7000 (∃ x kk, · = .addImm x kk) := by
  refine encodedBy_op (op := 0x7) (fun w hop => ?_) ?_
  · exact ⟨.addImm (fieldX w) (fieldKk w), by simp [decodeWord, hop], _, _, rfl⟩
  · rintro i ⟨x, kk, rfl⟩
    exact fieldOp_formXK 0x7 x kk

theorem encodedBy_ldReg : EncodedBy 0xF00F 0x8000 (∃ x y, · = .ldReg x y) := by
  refine encodedBy_op_n (op := 0x8) (n := 0x0) (fun w hop hn => ?_) ?_
  · exact ⟨.ldReg (fieldX w) (fieldY w), by simp [decodeWord, decodeRow8, hop, hn], _, _, rfl⟩
  · rintro i ⟨x, y, rfl⟩
    exact ⟨fieldOp_formXYN 0x8 x y 0x0, fieldN_formXYN 0x8 x y 0x0⟩

/-! ### What they do -/

theorem exec_ldImm (x : Reg) (kk : Byte) (s : State) : exec (.ldImm x kk) s = .next (s.setReg x kk).advance := rfl

theorem exec_addImm (x : Reg) (kk : Byte) (s : State) :
    exec (.addImm x kk) s = .next (s.setReg x (s.reg x + kk)).advance := rfl

theorem exec_ldReg (x y : Reg) (s : State) : exec (.ldReg x y) s = .next (s.setReg x (s.reg y)).advance := rfl

/-! ### One register written, then the next instruction -/

@[simp] theorem advance_reg (s : State) (r : Reg) : s.advance.reg r = s.reg r := rfl

@[simp] theorem advance_pc (s : State) : s.advance.pc = s.pc + 2 := rfl

/-- Going on to the next instruction changes PC only (00_scope.md R13). -/
theorem changesOnly_advance (s : State) : ChangesOnly [.pc] s s.advance := by
  constructor
  case pc => simp
  all_goals intros; rfl

theorem setReg_reg_same (x : Reg) (b : Byte) (s : State) : (s.setReg x b).reg x = b := by simp

theorem setReg_reg_other {x q : Reg} (h : q ≠ x) (b : Byte) (s : State) : (s.setReg x b).reg q = s.reg q := by simp [h]

theorem setReg_own_value (x : Reg) (s : State) : s.setReg x (s.reg x) = s := by simp [State.setReg, State.reg]

theorem raisesNothing_setReg_advance (x : Reg) (b : Byte) (s : State) : RaisesNothing s (s.setReg x b).advance :=
  ⟨rfl, rfl⟩

/-! ### The obligation -/

/-- Settles O24: each of the three writes one register and goes on, and LD Vx, Vx writes what V[x] already holds. -/
theorem plainRegisterWritesGiveTheirValues : Obligations.PlainRegisterWritesGiveTheirValues := by
  refine ⟨encodedBy_ldImm, encodedBy_addImm, encodedBy_ldReg, fun x y kk s => ?_⟩
  have hvf (b : Byte) (hx : x ≠ VF) : (s.setReg x b).advance.reg VF = s.reg VF := setReg_reg_other hx.symm b s
  refine ⟨?_, ?_, ?_⟩
  · rw [exec_ldImm, completesWith_next]
    exact ⟨setReg_reg_same x kk s, rfl, hvf kk, raisesNothing_setReg_advance x kk s⟩
  · rw [exec_addImm, completesWith_next]
    have hsum : ((s.setReg x (s.reg x + kk)).advance.reg x).toNat = ((s.reg x).toNat + kk.toNat) % 256 := by
      simp [BitVec.toNat_add]
    exact ⟨hsum, rfl, hvf _, raisesNothing_setReg_advance x _ s⟩
  · rw [exec_ldReg, completesWith_next]
    refine ⟨setReg_reg_same x _ s, rfl, hvf _, raisesNothing_setReg_advance x _ s, ?_⟩
    rintro rfl
    rw [setReg_own_value]
    exact changesOnly_advance s

end Sys2Proof.Machine
end

section
/-! PROOFS. The load of the index register with an address (42_index_memory.md R150). -/

namespace Sys2Proof.Machine

/-! ### Which words it is -/

theorem encodedBy_ldI : EncodedBy 0xF000 0xA000 (∃ nnn, · = .ldI nnn) := by
  refine encodedBy_op (op := 0xA) (fun w hop => ?_) ?_
  · exact ⟨.ldI (fieldNnn w), by simp [decodeWord, hop], _, rfl⟩
  · rintro i ⟨nnn, rfl⟩
    exact fieldOp_formA 0xA nnn

/-! ### What it does -/

theorem exec_ldI (nnn : Addr12) (s : State) : exec (.ldI nnn) s = .next (s.setI (addressOperand nnn)).advance := rfl

/-- An address operand is within memory (30_encoding.md R73). -/
theorem addressOperand_le (nnn : Addr12) : (addressOperand nnn).toNat ≤ 0xFFF := by
  rw [addressOperand_toNat]
  exact Nat.le_of_lt_succ nnn.isLt

theorem raisesNothing_setI_advance (a : Word) (s : State) : RaisesNothing s (s.setI a).advance := ⟨rfl, rfl⟩

/-! ### The obligation -/

/-- Settles O29: I is the address operand, whose 12 bits bound it, and only PC is written besides. -/
theorem loadIndexGivesTheAddress : Obligations.LoadIndexGivesTheAddress := by
  refine ⟨encodedBy_ldI, fun nnn s => ?_⟩
  rw [exec_ldI, completesWith_next]
  exact ⟨addressOperand_toNat nnn, addressOperand_le nnn, rfl, rfl, raisesNothing_setI_advance _ s⟩

end Sys2Proof.Machine
end

section
/-! PROOFS. The clear of the display (43_display.md R170). -/

namespace Sys2Proof.Machine

/-! ### Which word it is -/

/-- As `encodedBy_op`, for a row with no operand: all 16 bits are fixed. -/
theorem encodedBy_word {word : Word} {i : Instr} (hdec : decodeWord word = some i) :
    EncodedBy 0xFFFF word (· = i) := by
  have hmask (w : Word) : w &&& 0xFFFF = w := BitVec.and_allOnes
  refine encodedBy_of_decode_of_encode (fun w hw => ?_) ?_
  · obtain rfl : w = word := (hmask w).symm.trans hw
    exact ⟨i, hdec, rfl⟩
  · rintro _ rfl
    rw [hmask, encode_of_decodeWord hdec]

theorem encodedBy_cls : EncodedBy 0xFFFF 0x00E0 (· = .cls) := encodedBy_word rfl

/-! ### What it does -/

theorem exec_cls (s : State) : exec .cls s = .next (s.setDisp Display.clear).advance := rfl

theorem raisesNothing_setDisp_advance (d : Display) (s : State) : RaisesNothing s (s.setDisp d).advance := ⟨rfl, rfl⟩

/-- A display with every pixel off is the cleared display (10_state.md R31). -/
theorem eq_clear_of_pixels_off {d : Display} (hoff : ∀ row < 32, ∀ col < 64, Display.pixel d row col = false) :
    d = Display.clear :=
  display_ext fun row hrow col hcol => (hoff row hrow col hcol).trans (pixel_clear row col).symm

theorem setDisp_own_value (s : State) : s.setDisp s.disp = s := rfl

/-! ### The obligation -/

/-- Settles O37: the display is overwritten with the clear one, which on a clear display writes what it already
holds. -/
theorem clearTurnsEveryPixelOff : Obligations.ClearTurnsEveryPixelOff := by
  refine ⟨encodedBy_cls, fun s => ?_⟩
  rw [exec_cls, completesWith_next]
  refine ⟨fun row _ col _ => pixel_clear row col, rfl, rfl, raisesNothing_setDisp_advance _ s, fun hoff => ?_⟩
  rw [← eq_clear_of_pixels_off hoff, setDisp_own_value]
  exact changesOnly_advance s

end Sys2Proof.Machine
end

section
/-! PROOFS. The timer instructions (44_keys_timers.md R192, R194, R195): what they do, and that the meaning of every
instruction but LD ST, Vx commutes with a write to ST. -/

namespace Sys2Proof.Machine

/-! ### Which words they are -/

/-- As `encodedBy_op`, for a row whose fixed fields are the op and the function byte kk, and whose operand is x. -/
theorem encodedBy_op_kk {op : BitVec 4} {kk : Byte} {mk : Reg → Instr}
    (hdec : ∀ x, decodeWord (formXK op x kk) = some (mk x)) :
    EncodedBy 0xF0FF (formXK op 0 kk) (∃ x, · = mk x) := by
  refine encodedBy_of_decode_of_encode (fun w hw => ?_) ?_
  · obtain ⟨hop, hkk⟩ := (masked_XF_iff w op kk).mp hw
    have hw' := hdec (fieldX w)
    rw [formXK_of_op_kk hop hkk] at hw'
    exact ⟨mk (fieldX w), hw', _, rfl⟩
  · rintro _ ⟨x, rfl⟩
    rw [encode_of_decodeWord (hdec x), formXK_masked]

theorem encodedBy_ldRegDt : EncodedBy 0xF0FF 0xF007 (∃ x, · = .ldRegDt x) :=
  encodedBy_op_kk (op := 0xF) (kk := 0x07) fun x => by simp [decodeWord, decodeRowF]

theorem encodedBy_ldDtReg : EncodedBy 0xF0FF 0xF015 (∃ x, · = .ldDtReg x) :=
  encodedBy_op_kk (op := 0xF) (kk := 0x15) fun x => by simp [decodeWord, decodeRowF]

theorem encodedBy_ldStReg : EncodedBy 0xF0FF 0xF018 (∃ x, · = .ldStReg x) :=
  encodedBy_op_kk (op := 0xF) (kk := 0x18) fun x => by simp [decodeWord, decodeRowF]

/-! ### What they do -/

theorem exec_ldRegDt (x : Reg) (s : State) : exec (.ldRegDt x) s = .next (s.setReg x s.dt).advance := rfl

theorem exec_ldDtReg (x : Reg) (s : State) : exec (.ldDtReg x) s = .next (s.setDt (s.reg x)).advance := rfl

theorem exec_ldStReg (x : Reg) (s : State) : exec (.ldStReg x) s = .next (s.setSt (s.reg x)).advance := rfl

/-- A timer at 0 is held there (10_state.md R30). -/
theorem countDown_of_eq_zero {b : Byte} (h : b = 0) (n : Nat) : countDown n b = 0 := (if_pos h).trans h

/-! ### A write to ST commutes with what does not touch ST -/

/-- A guarded effect commutes with a write to ST when the effect does: the range check looks at the addresses only. -/
theorem guardRange_setSt {f : State → State} (i : Instr) (a len : Nat) (kind : AccessKind) (s : State) (b : Byte)
    (hf : f (s.setSt b) = (f s).setSt b) :
    guardRange i a len kind f (s.setSt b) = (guardRange i a len kind f s).setSt b := by
  obtain ⟨hfree, h⟩ | ⟨bad, hbad, h⟩ := guardRange_cases i a len kind f s
  · rw [h, guardRange_ok hfree, hf]
  · rw [h, guardRange_bad hbad]
    rfl

theorem exec_ret_setSt (s : State) (b : Byte) :
    exec .ret (s.setSt b) = mapNext (State.setSt b) (exec .ret s) := by
  by_cases hsp : s.sp = 0
  · rw [exec_ret_of_sp_eq_zero hsp, exec_ret_of_sp_eq_zero (s := s.setSt b) hsp]
    rfl
  · rw [exec_ret_of_sp_ne_zero hsp, exec_ret_of_sp_ne_zero (s := s.setSt b) hsp]
    rfl

theorem exec_call_setSt (nnn : Addr12) (s : State) (b : Byte) :
    exec (.call nnn) (s.setSt b) = mapNext (State.setSt b) (exec (.call nnn) s) := by
  by_cases hsp : s.sp = 15
  · rw [exec_call_of_sp_eq_top hsp, exec_call_of_sp_eq_top (s := s.setSt b) hsp]
    rfl
  · rw [exec_call_of_sp_ne_top hsp, exec_call_of_sp_ne_top (s := s.setSt b) hsp]
    rfl

/-- No instruction reads ST, and only LD ST, Vx writes it (R195). The meanings that choose between an effect and a fault
are split on that choice; each of the others is one run of updates of fields other than ST. -/
theorem exec_setSt {i : Instr} (hi : ∀ x, i ≠ .ldStReg x) (s : State) (b : Byte) :
    exec i (s.setSt b) = mapNext (State.setSt b) (exec i s) := by
  cases i with
  | ldStReg x => exact absurd rfl (hi x)
  | ret => exact exec_ret_setSt s b
  | call nnn => exact exec_call_setSt nnn s b
  | drw x y n => exact congrArg Host.Outcome.next (guardRange_setSt _ s.i.toNat _ _ s b rfl)
  | ldBcd x => exact congrArg Host.Outcome.next (guardRange_setSt _ s.i.toNat _ _ s b rfl)
  | storeRegs x => exact congrArg Host.Outcome.next (guardRange_setSt _ s.i.toNat _ _ s b rfl)
  | loadRegs x => exact congrArg Host.Outcome.next (guardRange_setSt _ s.i.toNat _ _ s b rfl)
  | _ => rfl

/-! ### The obligations -/

/-- Settles O43: ST is written and shown as written, and a write to ST before any other instruction can be moved after
it. -/
theorem soundTimerIsSetAndNeverReadBack : Obligations.SoundTimerIsSetAndNeverReadBack := by
  refine ⟨encodedBy_ldStReg, fun x s => ?_, fun i s b hi => exec_setSt hi s b⟩
  rw [exec_ldStReg, completesWith_next]
  exact ⟨rfl, output_soundTimer _, rfl, rfl, ⟨rfl, rfl⟩⟩

/-- Settles O42: each way writes only its target and goes on, and a timer set to 0 is held there by every tick. -/
theorem delayTimerIsReadAndSet : Obligations.DelayTimerIsReadAndSet := by
  refine ⟨encodedBy_ldDtReg, encodedBy_ldRegDt, fun x s => ⟨?_, ?_⟩⟩
  · rw [exec_ldDtReg, completesWith_next]
    exact ⟨rfl, rfl, rfl, ⟨rfl, rfl⟩, countDown_of_eq_zero⟩
  · rw [exec_ldRegDt, completesWith_next]
    exact ⟨setReg_reg_same x s.dt s, rfl, rfl, fun hx => setReg_reg_other hx.symm s.dt s,
      raisesNothing_setReg_advance x s.dt s⟩

end Sys2Proof.Machine
end

section
/-! PROOFS. The decode fault (60_exceptions.md R223): the opcode map accepts every word that the decoder accepts
(30_encoding.md R79), so an illegal word has no instruction, and the step in Running raises the fault. -/

namespace Sys2Proof

/-! ### What the decoder accepts, the opcode map accepts -/

theorem row_mem_opcodeMap (i : Instr) : i.row ∈ opcodeMap := by
  cases i <;> simp [opcodeMap, rowSamplesLow, rowSamplesHigh, Instr.row]

theorem row_accepts_encode (i : Instr) : i.row.accepts (encode i) = true :=
  match i with
  | .cls => Laws.EncodeMatchesRow.cls
  | .ret => Laws.EncodeMatchesRow.ret
  | .jp nnn => Laws.EncodeMatchesRow.jp nnn
  | .call nnn => Laws.EncodeMatchesRow.call nnn
  | .seImm x kk => Laws.EncodeMatchesRow.seImm x kk
  | .sneImm x kk => Laws.EncodeMatchesRow.sneImm x kk
  | .seReg x y => Laws.EncodeMatchesRow.seReg x y
  | .ldImm x kk => Laws.EncodeMatchesRow.ldImm x kk
  | .addImm x kk => Laws.EncodeMatchesRow.addImm x kk
  | .ldReg x y => Laws.EncodeMatchesRow.ldReg x y
  | .or x y => Laws.EncodeMatchesRow.or x y
  | .and x y => Laws.EncodeMatchesRow.and x y
  | .xor x y => Laws.EncodeMatchesRow.xor x y
  | .add x y => Laws.EncodeMatchesRow.add x y
  | .sub x y => Laws.EncodeMatchesRow.sub x y
  | .shr x y => Laws.EncodeMatchesRow.shr x y
  | .subn x y => Laws.EncodeMatchesRow.subn x y
  | .shl x y => Laws.EncodeMatchesRow.shl x y
  | .sneReg x y => Laws.EncodeMatchesRow.sneReg x y
  | .ldI nnn => Laws.EncodeMatchesRow.ldI nnn
  | .jpV0 nnn => Laws.EncodeMatchesRow.jpV0 nnn
  | .rnd x kk => Laws.EncodeMatchesRow.rnd x kk
  | .drw x y n => Laws.EncodeMatchesRow.drw x y n
  | .skp x => Laws.EncodeMatchesRow.skp x
  | .sknp x => Laws.EncodeMatchesRow.sknp x
  | .ldRegDt x => Laws.EncodeMatchesRow.ldRegDt x
  | .ldRegKey x => Laws.EncodeMatchesRow.ldRegKey x
  | .ldDtReg x => Laws.EncodeMatchesRow.ldDtReg x
  | .ldStReg x => Laws.EncodeMatchesRow.ldStReg x
  | .addI x => Laws.EncodeMatchesRow.addI x
  | .ldFont x => Laws.EncodeMatchesRow.ldFont x
  | .ldBcd x => Laws.EncodeMatchesRow.ldBcd x
  | .storeRegs x => Laws.EncodeMatchesRow.storeRegs x
  | .loadRegs x => Laws.EncodeMatchesRow.loadRegs x

theorem legalWord_encode (i : Instr) : legalWord (encode i) = true :=
  List.any_eq_true.mpr ⟨i.row, row_mem_opcodeMap i, row_accepts_encode i⟩

theorem decodeWord_of_illegal {w : Word} (h : legalWord w = false) : decodeWord w = none := by
  by_contra hdec
  obtain ⟨i, hi⟩ := Option.ne_none_iff_exists'.mp hdec
  rw [← encode_of_decodeWord hi, legalWord_encode] at h
  cases h

end Sys2Proof

namespace Sys2Proof.Machine

/-! ### The step in Running -/

theorem step_of_running {s : State} (h : s.run = .running) :
    step s = mapNext State.endTurn (stepRunning (tickMany s.turn.ticks s)) := by
  simp [step, step_eq, stepByRunState, h]

theorem stepRunning_of_illegal {s : State} {w : Word} (hfetch : fetch s = .ok w) (hw : legalWord w = false) :
    stepRunning s = .next (s.raise .decode (some w) none) := by
  simp [stepRunning, hfetch, decodeWord_of_illegal hw]

/-- A fault raised on the state after the ticks, with the turn then over, has the frame of a whole step. -/
theorem stepChangesOnly_raise (c : FaultCause) (w : Option Word) (a : Option Nat) (s : State) :
    StepChangesOnly [.run, .fault] s ((tickMany s.turn.ticks s).raise c w a).endTurn :=
  ⟨_, changesOnly_raise c w a _, rfl⟩

/-! ### The obligation -/

/-- Settles O10: the ticks leave the word at PC as it is, the word has no instruction, and the step is the fault's entry
alone. -/
theorem anIllegalWordTakesTheDecodeFault : Obligations.AnIllegalWordTakesTheDecodeFault := by
  intro s w hrun hpc hword hw
  have hfetch : fetch (tickMany s.turn.ticks s) = .ok w := (fetch_ok_iff _ w).mpr ⟨hpc, hword⟩
  rw [step_of_running hrun, stepRunning_of_illegal hfetch hw, mapNext_next, completesWith_next]
  exact ⟨rfl, rfl, stepChangesOnly_raise _ _ _ s⟩

end Sys2Proof.Machine
end

section
/-! PROOFS. Decoder, encoder and opcode map agree (30_encoding.md R72, R76, R77, R79): the decoder gives back every
encoded instruction, and every word that a row accepts decodes to an instruction of that row. -/

namespace Sys2Proof

/-! ### The decoder after the encoder -/

/-- The fields of an instruction's word are the instruction's own operands, and its fixed fields select its case. -/
theorem decodeWord_encode (i : Instr) : decodeWord (encode i) = some i := by
  cases i with
  | cls | ret => rfl
  | jp | call | ldI | jpV0 => simp [encode, decodeWord]
  | seImm | sneImm | ldImm | addImm | rnd => simp [encode, decodeWord]
  | seReg | sneReg | drw => simp [encode, decodeWord]
  | ldReg | or | and | xor | add | sub | shr | subn | shl => simp [encode, decodeWord, decodeRow8]
  | skp | sknp => simp [encode, decodeWord, decodeRowE]
  | ldRegDt | ldRegKey | ldDtReg | ldStReg | addI | ldFont | ldBcd | storeRegs | loadRegs =>
    simp [encode, decodeWord, decodeRowF]

theorem decodeWord_eq_some_iff {w : Word} {i : Instr} : decodeWord w = some i ↔ encode i = w :=
  ⟨encode_of_decodeWord, fun h => h ▸ decodeWord_encode i⟩

/-! ### A word that a row accepts decodes to that row -/

theorem fieldOp_eq_of_masked {w v : Word} (h : w &&& 0xF000 = v &&& 0xF000) : fieldOp w = fieldOp v :=
  (masked_A_iff w _).mp (h.trans ((masked_A_iff v _).mpr rfl))

theorem fieldOp_fieldN_eq_of_masked {w v : Word} (h : w &&& 0xF00F = v &&& 0xF00F) :
    fieldOp w = fieldOp v ∧ fieldN w = fieldN v :=
  (masked_XYN_iff w _ _).mp (h.trans ((masked_XYN_iff v _ _).mpr ⟨rfl, rfl⟩))

theorem fieldOp_fieldKk_eq_of_masked {w v : Word} (h : w &&& 0xF0FF = v &&& 0xF0FF) :
    fieldOp w = fieldOp v ∧ fieldKk w = fieldKk v :=
  (masked_XF_iff w _ _).mp (h.trans ((masked_XF_iff v _ _).mpr ⟨rfl, rfl⟩))

/-- A word that a row accepts agrees with the words of the row's instructions on the row's mask (R77). -/
theorem masked_eq_encode_of_accepts {i : Instr} {w : Word} (h : i.row.accepts w = true) :
    w &&& i.row.mask = encode i &&& i.row.mask :=
  (beq_iff_eq.mp h).trans (beq_iff_eq.mp (row_accepts_encode i)).symm

/-- Its fixed fields then select the same case of the decoder. The cases are the kinds of rows: all bits fixed; op and
n; op and kk; op alone. -/
theorem decodeWord_of_row_accepts {i : Instr} {w : Word} (h : i.row.accepts w = true) :
    ∃ j, decodeWord w = some j ∧ j.row = i.row := by
  have hmask := masked_eq_encode_of_accepts h
  cases i with
  | cls | ret =>
    obtain rfl : w = _ := (BitVec.and_allOnes (x := w)).symm.trans hmask
    exact ⟨_, rfl, rfl⟩
  | seReg | sneReg | ldReg | or | and | xor | add | sub | shr | subn | shl =>
    obtain ⟨hop, hn⟩ := fieldOp_fieldN_eq_of_masked hmask
    simp [decodeWord, decodeRow8, hop, hn, encode, Instr.row]
  | skp | sknp | ldRegDt | ldRegKey | ldDtReg | ldStReg | addI | ldFont | ldBcd | storeRegs | loadRegs =>
    obtain ⟨hop, hkk⟩ := fieldOp_fieldKk_eq_of_masked hmask
    simp [decodeWord, decodeRowE, decodeRowF, hop, hkk, encode, Instr.row]
  | jp | call | seImm | sneImm | ldImm | addImm | ldI | jpV0 | rnd | drw =>
    have hop := fieldOp_eq_of_masked hmask
    simp [decodeWord, hop, encode, Instr.row]

theorem exists_row_of_mem_opcodeMap {r : OpRow} (h : r ∈ opcodeMap) : ∃ i : Instr, i.row = r := by
  obtain ⟨i, -, hi⟩ := List.mem_map.mp h
  exact ⟨i, hi⟩

/-! ### The obligations -/

/-- Settles O2: the two bytes are the word's, and the decoder gives the word's instruction back. -/
theorem decodingAnEncodedInstructionGivesItBack : Obligations.DecodingAnEncodedInstructionGivesItBack := by
  intro i rest
  show decode (firstByte (encode i) :: secondByte (encode i) :: rest) = .ok (i, rest)
  rw [decode_cons_cons, wordOfBytes_bytes, decodeWord_encode]

/-- Settles O3: each case of the decoder keeps every field of the word. -/
theorem encodingADecodedWordGivesItBack : Obligations.EncodingADecodedWordGivesItBack :=
  fun _ _ => encode_of_decodeWord

/-- Settles O4: a word that decodes is accepted by its instruction's row, and any row that accepts it is the row of an
instruction it decodes to. -/
theorem aWordDecodesExactlyWhenItMatchesOneRow : Obligations.AWordDecodesExactlyWhenItMatchesOneRow := by
  refine ⟨fun w => ?_, fun w i hi r hr => ⟨fun hacc => ?_, ?_⟩⟩
  · rw [Bool.eq_iff_iff]
    constructor
    · intro hdec
      obtain ⟨i, hi⟩ := Option.isSome_iff_exists.mp hdec
      exact encode_of_decodeWord hi ▸ legalWord_encode i
    · intro hlegal
      obtain ⟨r, hr, hacc⟩ := List.any_eq_true.mp hlegal
      obtain ⟨i, rfl⟩ := exists_row_of_mem_opcodeMap hr
      obtain ⟨j, hj, -⟩ := decodeWord_of_row_accepts hacc
      exact Option.isSome_of_eq_some hj
  · obtain ⟨k, rfl⟩ := exists_row_of_mem_opcodeMap hr
    obtain ⟨j, hj, hrow⟩ := decodeWord_of_row_accepts hacc
    obtain rfl : j = i := Option.some.inj (hj.symm.trans hi)
    exact hrow.symm
  · rintro rfl
    exact encode_of_decodeWord hi ▸ row_accepts_encode i

/-- Settles O1: the decoder computes on each of the eleven words. -/
theorem specWordsDecodeToTheirInstructions : Obligations.SpecWordsDecodeToTheirInstructions := by
  unfold Obligations.SpecWordsDecodeToTheirInstructions
  decide

end Sys2Proof
end

section
/-! SUPPORT. Frames (00_scope.md R13): how they compose, the frame of each update of the state, and from them the parts
that each instruction writes when its checks pass and the fault it raises when they do not. -/

namespace Sys2Proof.Machine

/-! ### Frames compose -/

theorem ChangesOnly.mono {W W' : List Part} {s t : State} (hsub : W ⊆ W') (h : ChangesOnly W s t) :
    ChangesOnly W' s t where
  regs r hr := h.regs r (mt (hsub ·) hr)
  index hi := h.index (mt (hsub ·) hi)
  pc hp := h.pc (mt (hsub ·) hp)
  bytes a ha := h.bytes a (mt (hsub ·) ha)
  stack j hj := h.stack j (mt (hsub ·) hj)
  sp hs := h.sp (mt (hsub ·) hs)
  dt hd := h.dt (mt (hsub ·) hd)
  st hs := h.st (mt (hsub ·) hs)
  display hd := h.display (mt (hsub ·) hd)
  run hr := h.run (mt (hsub ·) hr)
  kwTarget hk := h.kwTarget (mt (hsub ·) hk)
  fault hf := h.fault (mt (hsub ·) hf)
  env := h.env
  turns := h.turns

theorem ChangesOnly.trans {W : List Part} {s t u : State} (h : ChangesOnly W s t) (h' : ChangesOnly W t u) :
    ChangesOnly W s u where
  regs r hr := (h'.regs r hr).trans (h.regs r hr)
  index hi := (h'.index hi).trans (h.index hi)
  pc hp := (h'.pc hp).trans (h.pc hp)
  bytes a ha := (h'.bytes a ha).trans (h.bytes a ha)
  stack j hj := (h'.stack j hj).trans (h.stack j hj)
  sp hs := (h'.sp hs).trans (h.sp hs)
  dt hd := (h'.dt hd).trans (h.dt hd)
  st hs := (h'.st hs).trans (h.st hs)
  display hd := (h'.display hd).trans (h.display hd)
  run hr := (h'.run hr).trans (h.run hr)
  kwTarget hk := (h'.kwTarget hk).trans (h.kwTarget hk)
  fault hf := (h'.fault hf).trans (h.fault hf)
  env := h'.env.trans h.env
  turns := h'.turns.trans h.turns

theorem ChangesOnly.append {W W' : List Part} {s t u : State} (h : ChangesOnly W s t) (h' : ChangesOnly W' t u) :
    ChangesOnly (W ++ W') s u :=
  (h.mono (List.subset_append_left _ _)).trans (h'.mono (List.subset_append_right _ _))

/-- A change in `W`, then the next instruction. -/
theorem ChangesOnly.advance {W : List Part} {s t : State} (h : ChangesOnly W s t) :
    ChangesOnly (.pc :: W) s t.advance :=
  (h.mono (List.subset_cons_self _ _)).trans ((changesOnly_advance t).mono (by simp))

theorem ChangesOnly.stack_eq {W : List Part} {s t : State} (h : ChangesOnly W s t)
    (hW : ∀ j, .stackEntry j ∉ W) : t.stack = s.stack :=
  Vector.ext fun j hj => h.stack ⟨j, hj⟩ (hW ⟨j, hj⟩)

/-! ### The frame of each update -/

theorem changesOnly_setReg (x : Reg) (b : Byte) (s : State) : ChangesOnly [.reg x] s (s.setReg x b) := by
  constructor
  case regs =>
    intro r hr
    exact setReg_reg_other (by simpa using hr) b s
  all_goals intros; rfl

theorem changesOnly_setRegs (x : Reg) (f : Reg → Byte) (s : State) (hf : ∀ r, ¬r ≤ x → f r = s.reg r) :
    ChangesOnly (regParts x) s (s.setRegs f) := by
  constructor
  case regs =>
    intro r hr
    rw [setRegs_reg, hf r (by simpa [mem_regParts] using hr)]
  all_goals intros; rfl

theorem changesOnly_setPc (a : Word) (s : State) : ChangesOnly [.pc] s (s.setPc a) := by
  constructor
  case pc => simp
  all_goals intros; rfl

theorem changesOnly_skipIf (c : Bool) (s : State) : ChangesOnly [.pc] s (s.skipIf c) := changesOnly_setPc _ s

theorem changesOnly_setI (a : Word) (s : State) : ChangesOnly [.index] s (s.setI a) := by
  constructor
  case index => simp
  all_goals intros; rfl

theorem changesOnly_setDt (b : Byte) (s : State) : ChangesOnly [.dt] s (s.setDt b) := by
  constructor
  case dt => simp
  all_goals intros; rfl

theorem changesOnly_setSt (b : Byte) (s : State) : ChangesOnly [.st] s (s.setSt b) := by
  constructor
  case st => simp
  all_goals intros; rfl

theorem changesOnly_setDisp (d : Display) (s : State) : ChangesOnly [.display] s (s.setDisp d) := by
  constructor
  case display => simp
  all_goals intros; rfl

theorem changesOnly_setRun (r : RunState) (s : State) : ChangesOnly [.run] s (s.setRun r) := by
  constructor
  case run => simp
  all_goals intros; rfl

theorem changesOnly_setKwTarget (x : Reg) (s : State) : ChangesOnly [.kwTarget] s (s.setKwTarget x) := by
  constructor
  case kwTarget => simp
  all_goals intros; rfl

theorem changesOnly_pop (s : State) : ChangesOnly [.sp] s s.pop := by
  constructor
  case sp => simp
  all_goals intros; rfl

theorem changesOnly_push (a : Word) (s : State) : ChangesOnly [.sp, .stackEntry (s.sp + 1)] s (s.push a) := by
  constructor
  case sp => simp
  case stack =>
    intro j hj
    exact push_stack_other (by simpa using hj)
  all_goals intros; rfl

/-- Whichever write comes last (41_alu.md R120). -/
theorem changesOnly_writeFlagAndResult (order : Config.FlagWriteOrder) (x : Reg) (result : Byte) (flag : Bool)
    (s : State) : ChangesOnly [.reg x, .reg VF] s (s.writeFlagAndResult order x result flag) := by
  have hx (b : Byte) (t : State) : ChangesOnly [.reg x, .reg VF] t (t.setReg x b) :=
    (changesOnly_setReg x b t).mono (by simp)
  have hvf (b : Byte) (t : State) : ChangesOnly [.reg x, .reg VF] t (t.setReg VF b) :=
    (changesOnly_setReg VF b t).mono (by simp)
  cases order with
  | vfFirst => exact (hvf _ s).trans (hx _ _)
  | vfLast => exact (hx _ s).trans (hvf _ _)

/-! ### What an instruction checks and what it writes -/

/-- The checks of an instruction pass: the stack admits the RET or the CALL, the range admits the access
(00_scope.md R13). -/
def Admits (s : State) : Instr → Prop
  | .ret => s.sp ≠ 0
  | .call _ => s.sp ≠ 15
  | .drw _ _ n => n.val = 0 ∨ s.i.toNat + n.val ≤ 0x1000
  | .ldBcd _ => 0x200 ≤ s.i.toNat ∧ s.i.toNat + 3 ≤ 0x1000
  | .storeRegs x => 0x200 ≤ s.i.toNat ∧ s.i.toNat + (x.val + 1) ≤ 0x1000
  | .loadRegs x => s.i.toNat + (x.val + 1) ≤ 0x1000
  | _ => True

/-- The parts an instruction writes when its checks pass. -/
def writes (s : State) : Instr → List Part
  | .cls => [.pc, .display]
  | .ret => [.pc, .sp]
  | .call _ => [.pc, .sp, .stackEntry (s.sp + 1)]
  | .jp _ | .jpV0 _ | .seImm _ _ | .sneImm _ _ | .seReg _ _ | .sneReg _ _ | .skp _ | .sknp _ => [.pc]
  | .ldImm x _ | .addImm x _ | .rnd x _ | .ldReg x _ | .or x _ | .and x _ | .xor x _ | .ldRegDt x => [.pc, .reg x]
  | .add x _ | .sub x _ | .subn x _ | .shr x _ | .shl x _ => [.pc, .reg x, .reg VF]
  | .ldI _ | .addI _ | .ldFont _ => [.pc, .index]
  | .ldDtReg _ => [.pc, .dt]
  | .ldStReg _ => [.pc, .st]
  | .ldRegKey _ => [.run, .kwTarget]
  | .drw _ _ _ => [.pc, .display, .reg VF]
  | .ldBcd _ => .pc :: byteParts s.i.toNat 3
  | .storeRegs x => .pc :: byteParts s.i.toNat (x.val + 1)
  | .loadRegs x => .pc :: regParts x

/-! ### The guarded instructions, when the range is free -/

theorem exec_drw_of_admits {x y : Reg} {n : Fin 16} {s : State} (h : n.val = 0 ∨ s.i.toNat + n.val ≤ 0x1000) :
    exec (.drw x y n) s =
      .next ((s.setDisp (s.blit x y n.val).disp).setReg VF (flagByte (s.blit x y n.val).hit)).advance :=
  congrArg Host.Outcome.next (guardRange_ok ((checkRange_read_iff _ _).mpr h))

theorem exec_ldBcd_of_admits {x : Reg} {s : State} (h : 0x200 ≤ s.i.toNat ∧ s.i.toNat + 3 ≤ 0x1000) :
    exec (.ldBcd x) s = .next (s.storeBytes s.i.toNat (bcdDigits (s.reg x))).advance :=
  congrArg Host.Outcome.next (guardRange_ok ((checkRange_write_iff _ _).mpr (.inr h)))

theorem exec_storeRegs_of_admits {x : Reg} {s : State}
    (h : 0x200 ≤ s.i.toNat ∧ s.i.toNat + (x.val + 1) ≤ 0x1000) :
    exec (.storeRegs x) s = .next (s.storeBytes s.i.toNat (s.regsUpTo x)).advance :=
  congrArg Host.Outcome.next (guardRange_ok ((checkRange_write_iff _ _).mpr (.inr h)))

theorem exec_loadRegs_of_admits {x : Reg} {s : State} (h : s.i.toNat + (x.val + 1) ≤ 0x1000) :
    exec (.loadRegs x) s =
      .next (s.setRegs (fun k => if k ≤ x then s.byte (s.i.toNat + k.val) else s.reg k)).advance :=
  congrArg Host.Outcome.next (guardRange_ok ((checkRange_read_iff _ _).mpr (.inr h)))

/-! ### The frame of an instruction -/

/-- An instruction whose checks pass goes on and changes only the parts it writes. -/
theorem exec_of_admits {i : Instr} {s : State} (h : Admits s i) :
    ∃ t, exec i s = .next t ∧ ChangesOnly (writes s i) s t := by
  cases i with
  | cls => exact ⟨_, rfl, (changesOnly_setDisp _ s).advance⟩
  | ret =>
    exact ⟨_, exec_ret_of_sp_ne_zero h,
      ((changesOnly_pop s).append (changesOnly_setPc _ _)).mono (by simp [writes])⟩
  | call nnn =>
    exact ⟨_, exec_call_of_sp_ne_top h,
      ((changesOnly_push _ s).append (changesOnly_setPc _ _)).mono (by simp [writes])⟩
  | jp | jpV0 => exact ⟨_, rfl, changesOnly_setPc _ s⟩
  | seImm | sneImm | seReg | sneReg | skp | sknp => exact ⟨_, rfl, changesOnly_skipIf _ s⟩
  | ldImm | addImm | rnd | ldReg | or | and | xor | ldRegDt => exact ⟨_, rfl, (changesOnly_setReg _ _ s).advance⟩
  | add | sub | subn | shr | shl => exact ⟨_, rfl, (changesOnly_writeFlagAndResult _ _ _ _ s).advance⟩
  | ldI | addI | ldFont => exact ⟨_, rfl, (changesOnly_setI _ s).advance⟩
  | ldDtReg => exact ⟨_, rfl, (changesOnly_setDt _ s).advance⟩
  | ldStReg => exact ⟨_, rfl, (changesOnly_setSt _ s).advance⟩
  | ldRegKey x =>
    exact ⟨_, rfl, ((changesOnly_setKwTarget x s).append (changesOnly_setRun _ _)).mono (by simp [writes])⟩
  | drw => exact ⟨_, exec_drw_of_admits h, ((changesOnly_setDisp _ s).append (changesOnly_setReg VF _ _)).advance⟩
  | ldBcd x =>
    exact ⟨_, exec_ldBcd_of_admits h, (changesOnly_storeBytes s.i.toNat (bcdDigits (s.reg x)) s).advance⟩
  | storeRegs x =>
    refine ⟨_, exec_storeRegs_of_admits h, ?_⟩
    simpa [writes] using (changesOnly_storeBytes s.i.toNat (s.regsUpTo x) s).advance
  | loadRegs x =>
    exact ⟨_, exec_loadRegs_of_admits h, (changesOnly_setRegs x _ s fun r hr => if_neg hr).advance⟩

theorem exec_changesOnly {i : Instr} {s t : State} (h : exec i s = .next t) (hi : Admits s i) :
    ChangesOnly (writes s i) s t := by
  obtain ⟨u, hu, hframe⟩ := exec_of_admits hi
  cases hu.symm.trans h
  exact hframe

/-! ### The fault of an instruction -/

/-- The instruction raises the fault of its own row, with a record the latch may hold (60_exceptions.md R220, R227). -/
def RaisesOwnFault (i : Instr) (s : State) : Prop :=
  ∃ c a, exec i s = .next (s.raise c (some (encode i)) a) ∧ RaisedBy c i ∧
    FaultRecord.Lawful { cause := c, pc := s.pc, word := some (encode i), addr := a }

theorem checkRange_some_forbidden {a len bad : Nat} {kind : AccessKind} (h : checkRange a len kind = some bad) :
    bad > 0xFFF ∨ bad ≤ 0x1FF := by
  obtain ⟨k, -, -, hbad, -⟩ := checkRange_some h
  cases kind with
  | read => exact .inl (by simpa [badAddress] using hbad)
  | write => simpa [badAddress, Param.protectReserved] using hbad

/-- A guarded instruction whose range is not free raises the address fault. -/
theorem raisesOwnFault_of_guard {i : Instr} {s : State} {a len : Nat} {kind : AccessKind} {f : State → State}
    (hexec : exec i s = .next (guardRange i a len kind f s)) (hi : RaisedBy .address i)
    (hrange : checkRange a len kind ≠ none) : RaisesOwnFault i s := by
  obtain ⟨bad, hbad⟩ := Option.ne_none_iff_exists'.mp hrange
  exact ⟨.address, some bad, hexec.trans (congrArg _ (guardRange_bad hbad)), hi, bad, rfl,
    checkRange_some_forbidden hbad⟩

/-- An instruction whose checks do not pass raises the fault of its row. -/
theorem raisesOwnFault_of_not_admits {i : Instr} {s : State} (h : ¬Admits s i) : RaisesOwnFault i s := by
  cases i with
  | ret => exact ⟨_, _, exec_ret_of_sp_eq_zero (not_not.mp h), rfl, rfl, rfl⟩
  | call nnn => exact ⟨_, _, exec_call_of_sp_eq_top (not_not.mp h), ⟨nnn, rfl⟩, ⟨nnn, rfl⟩, rfl⟩
  | drw x y n => exact raisesOwnFault_of_guard rfl (.inl ⟨x, y, n, rfl⟩) (mt (checkRange_read_iff _ _).mp h)
  | ldBcd x =>
    exact raisesOwnFault_of_guard rfl (.inr ⟨x, .inl rfl⟩)
      (mt (checkRange_write_iff _ _).mp (not_or.mpr ⟨by decide, h⟩))
  | storeRegs x =>
    exact raisesOwnFault_of_guard rfl (.inr ⟨x, .inr (.inl rfl)⟩)
      (mt (checkRange_write_iff _ _).mp (not_or.mpr ⟨Nat.succ_ne_zero _, h⟩))
  | loadRegs x =>
    exact raisesOwnFault_of_guard rfl (.inr ⟨x, .inr (.inr rfl)⟩)
      (mt (checkRange_read_iff _ _).mp (not_or.mpr ⟨Nat.succ_ne_zero _, h⟩))
  | _ => exact absurd trivial h

end Sys2Proof.Machine
end

section
/-! SUPPORT. What one step can do, said once for each run state (60_exceptions.md R211, 30_encoding.md R75,
44_keys_timers.md R197). -/

namespace Sys2Proof.Machine

/-! ### The step in Running -/

theorem atPc_of_fetch {s : State} {w : Word} {i : Instr} (hfetch : fetch s = .ok w) (hw : decodeWord w = some i) :
    AtPc s i := by
  obtain ⟨hpc, rfl⟩ := (fetch_ok_iff s w).mp hfetch
  exact ⟨hpc, decode_pair_ok_iff.mpr ⟨hw, rfl⟩⟩

theorem stepRunning_of_atPc {s : State} {i : Instr} (h : AtPc s i) : stepRunning s = exec i s := by
  obtain ⟨w, hfetch, hw⟩ := fetch_of_atPc h
  simp [stepRunning, hfetch, hw]

theorem stepRunning_of_fetch_error {s : State} {bad : Nat} (h : fetch s = .error bad) :
    stepRunning s = .next (s.raise .address none (some bad)) := by
  simp [stepRunning, h]

theorem stepRunning_of_decode_none {s : State} {w : Word} (hfetch : fetch s = .ok w) (hw : decodeWord w = none) :
    stepRunning s = .next (s.raise .decode (some w) none) := by
  simp [stepRunning, hfetch, hw]

/-! ### The step by run state -/

theorem stepByRunState_of_running {s : State} (h : s.run = .running) : stepByRunState s = stepRunning s := by
  simp [stepByRunState, h]

theorem stepByRunState_of_awaitingKey {s : State} (h : s.run = .awaitingKey) :
    stepByRunState s = stepAwaitingKey s := by
  simp [stepByRunState, h]

theorem stepByRunState_of_halted {s : State} (h : s.run = .halted) : stepByRunState s = .next s := by
  simp [stepByRunState, h]

theorem stepAwaitingKey_of_none {s : State} (h : s.input.keyPress = none) : stepAwaitingKey s = .next s := by
  simp [stepAwaitingKey, h]

theorem stepAwaitingKey_of_some {s : State} {k : Key} (h : s.input.keyPress = some k) :
    stepAwaitingKey s = .next (s.resolveWait k) := by
  simp [stepAwaitingKey, h]

/-- What the step by run state makes of `s`, one constructor per branch. -/
inductive StepsTo (s : State) : State → Prop where
  | executes {i : Instr} {t : State} (hrun : s.run = .running) (hat : AtPc s i) (hexec : exec i s = .next t) :
    StepsTo s t
  | fetchFault {bad : Nat} (hrun : s.run = .running) (hfetch : fetch s = .error bad) :
    StepsTo s (s.raise .address none (some bad))
  | decodeFault {w : Word} (hrun : s.run = .running) (hw : decodeWord w = none) :
    StepsTo s (s.raise .decode (some w) none)
  | waits (hrun : s.run = .awaitingKey) : StepsTo s s
  | resolves (hrun : s.run = .awaitingKey) (k : Key) : StepsTo s (s.resolveWait k)
  | staysHalted (hrun : s.run = .halted) : StepsTo s s

theorem stepsTo_of_stepRunning {s t : State} (hrun : s.run = .running) (h : stepRunning s = .next t) :
    StepsTo s t := by
  cases hfetch : fetch s with
  | error bad =>
    cases (stepRunning_of_fetch_error hfetch).symm.trans h
    exact .fetchFault hrun hfetch
  | ok w =>
    cases hw : decodeWord w with
    | none =>
      cases (stepRunning_of_decode_none hfetch hw).symm.trans h
      exact .decodeFault hrun hw
    | some i =>
      have hat := atPc_of_fetch hfetch hw
      exact .executes hrun hat ((stepRunning_of_atPc hat).symm.trans h)

theorem stepsTo_of_stepAwaitingKey {s t : State} (hrun : s.run = .awaitingKey) (h : stepAwaitingKey s = .next t) :
    StepsTo s t := by
  cases hkey : s.input.keyPress with
  | none =>
    cases (stepAwaitingKey_of_none hkey).symm.trans h
    exact .waits hrun
  | some k =>
    cases (stepAwaitingKey_of_some hkey).symm.trans h
    exact .resolves hrun k

theorem stepsTo_of_stepByRunState {s t : State} (h : stepByRunState s = .next t) : StepsTo s t := by
  cases hrun : s.run with
  | running => exact stepsTo_of_stepRunning hrun ((stepByRunState_of_running hrun).symm.trans h)
  | awaitingKey => exact stepsTo_of_stepAwaitingKey hrun ((stepByRunState_of_awaitingKey hrun).symm.trans h)
  | halted =>
    cases (stepByRunState_of_halted hrun).symm.trans h
    exact .staysHalted hrun

/-- A step is the ticks, one of the branches, and the end of the turn. -/
theorem stepsTo_of_step {s t : State} (h : step s = .next t) :
    ∃ u, StepsTo (tickMany s.turn.ticks s) u ∧ t = u.endTurn := by
  obtain ⟨u, hu, rfl⟩ := mapNext_eq_next.mp h
  exact ⟨u, stepsTo_of_stepByRunState hu, rfl⟩

end Sys2Proof.Machine
end

section
/-! PROOFS. The invariant of the machine (10_state.md R26, R28; 20_memory.md R50, R51; 60_exceptions.md R220-R222): it
holds at reset, each update that an instruction is made of keeps it, and so every step keeps it. -/

namespace Sys2Proof.Machine

/-! ### What the invariant gives, and the updates that keep it -/

theorem Inv.fault_eq_none {s : State} (hs : Inv s) (hrun : s.run ≠ .halted) : s.fault = none :=
  Option.not_isSome_iff_eq_none.mp (mt hs.haltedLatched.mpr hrun)

/-- The timers and the environment's turns play no part in the invariant. -/
theorem Inv.tickMany {s : State} (hs : Inv s) (n : Nat) : Inv (tickMany n s) :=
  ⟨hs.memory, hs.reserved, hs.pcBound, hs.waitPc, hs.stackBottom, hs.stackBound, hs.haltedLatched, hs.latch⟩

theorem Inv.endTurn {s : State} (hs : Inv s) : Inv s.endTurn :=
  ⟨hs.memory, hs.reserved, hs.pcBound, hs.waitPc, hs.stackBottom, hs.stackBound, hs.haltedLatched, hs.latch⟩

/-- Running on with memory, the stack and the latch as they are, PC within its bound. -/
theorem Inv.runOn {s t : State} (hs : Inv s) (hrun : s.run ≠ .halted) (hmem : t.mem = s.mem)
    (hstack : t.stack = s.stack) (hfault : t.fault = s.fault) (hrun' : t.run = .running)
    (hpc : t.pc.toNat ≤ 0x10FE) : Inv t where
  memory := hmem ▸ hs.memory
  reserved a ha := (congrArg (Memory.read · a) hmem).trans (hs.reserved a ha)
  pcBound := hpc
  waitPc := by simp [hrun']
  stackBottom := hstack ▸ hs.stackBottom
  stackBound := hstack ▸ hs.stackBound
  haltedLatched := by simp [hrun', hfault, hs.fault_eq_none hrun]
  latch := by simp [hfault, hs.fault_eq_none hrun]

/-- Fault entry (R221) latches the PC, which stays, with a lawful record. -/
theorem Inv.raise {s : State} (hs : Inv s) {c : FaultCause} {w : Option Word} {a : Option Nat}
    (hlaw : FaultRecord.Lawful { cause := c, pc := s.pc, word := w, addr := a }) : Inv (s.raise c w a) where
  memory := hs.memory
  reserved := hs.reserved
  pcBound := hs.pcBound
  waitPc := by simp
  stackBottom := hs.stackBottom
  stackBound := hs.stackBound
  haltedLatched := by simp
  latch := by
    rintro r ⟨⟩
    exact ⟨rfl, hlaw⟩

/-- A store inside 0x200-0xFFF keeps the canonical form and the reserved region (20_memory.md R51, R54). -/
theorem Inv.storeBytes {s : State} (hs : Inv s) {a : Nat} {bs : List Byte} (ha : 0x200 ≤ a)
    (hend : a + bs.length ≤ 0x1000) : Inv (s.storeBytes a bs) where
  memory := writeBytes_wf bs hs.memory hend
  reserved q hq := (storeBytes_byte_outside (by omega)).trans (hs.reserved q hq)
  pcBound := hs.pcBound
  waitPc := hs.waitPc
  stackBottom := hs.stackBottom
  stackBound := hs.stackBound
  haltedLatched := hs.haltedLatched
  latch := hs.latch

/-- A push below the top writes an entry above STACK[0] (10_state.md R28). -/
theorem Inv.push {s : State} (hs : Inv s) (hsp : s.sp ≠ 15) {a : Word} (ha : a.toNat ≤ 0x1000) :
    Inv (s.push a) where
  memory := hs.memory
  reserved := hs.reserved
  pcBound := hs.pcBound
  waitPc := hs.waitPc
  stackBottom := by
    have hne : (0 : Fin 16) ≠ s.sp + 1 := fun e => by
      have := congrArg Fin.val e
      rw [sp_succ_val hsp] at this
      cases this
    exact (push_stack_other hne).trans hs.stackBottom
  stackBound j := by
    by_cases hj : j = s.sp + 1
    · subst hj
      simpa using ha
    · rw [push_stack_other hj]
      exact hs.stackBound j
  haltedLatched := hs.haltedLatched
  latch := hs.latch

/-- The wait begins at the Fx0A that was fetched (44_keys_timers.md R193). -/
theorem Inv.awaitKey {s : State} (hs : Inv s) (hrun : s.run ≠ .halted) (hpc : s.pc.toNat ≤ 0xFFE) (x : Reg) :
    Inv ((s.setKwTarget x).setRun .awaitingKey) where
  memory := hs.memory
  reserved := hs.reserved
  pcBound := hs.pcBound
  waitPc _ := hpc
  stackBottom := hs.stackBottom
  stackBound := hs.stackBound
  haltedLatched := by simp [hs.fault_eq_none hrun]
  latch := hs.latch

/-! ### An instruction keeps the invariant -/

theorem advance_pc_le {s : State} (h : s.pc.toNat ≤ 0xFFE) : s.advance.pc.toNat ≤ 0x1000 := by
  simp [BitVec.toNat_add]
  omega

theorem skipIf_pc_le {s : State} (h : s.pc.toNat ≤ 0xFFE) (c : Bool) : (s.skipIf c).pc.toNat ≤ 0x10FE := by
  rw [skipIf_pc_toNat]
  split <;> omega

/-- An instruction that was fetched (so PC is at most 0xFFE) and whose checks pass keeps the invariant: PC goes on by 2
or 4, to an address, to an address plus a byte, or to an entry of the stack. -/
theorem Inv.exec_of_admits {i : Instr} {s t : State} (hs : Inv s) (hrun : s.run = .running)
    (hpc : s.pc.toNat ≤ 0xFFE) (hi : Admits s i) (h : exec i s = .next t) : Inv t := by
  have hrun' : s.run ≠ .halted := by simp [hrun]
  have hnext (u : State) (hu : u.pc = s.pc) : u.advance.pc.toNat ≤ 0x10FE :=
    (advance_pc_le (hu ▸ hpc)).trans (by decide)
  cases i with
  | ret =>
    cases (exec_ret_of_sp_ne_zero hi).symm.trans h
    exact hs.runOn hrun' rfl rfl rfl hrun ((hs.stackBound s.sp).trans (by decide))
  | call nnn =>
    cases (exec_call_of_sp_ne_top hi).symm.trans h
    exact (hs.push hi (advance_pc_le hpc)).runOn hrun' rfl rfl rfl hrun ((addressOperand_le nnn).trans (by decide))
  | jp nnn =>
    cases h
    exact hs.runOn hrun' rfl rfl rfl hrun ((addressOperand_le nnn).trans (by decide))
  | jpV0 nnn =>
    cases h
    refine hs.runOn hrun' rfl rfl rfl hrun ?_
    rw [setPc_pc, indexedTarget_toNat]
    omega
  | seImm | sneImm | seReg | sneReg | skp | sknp =>
    cases h
    exact hs.runOn hrun' rfl rfl rfl hrun (skipIf_pc_le hpc _)
  | ldRegKey x =>
    cases h
    exact hs.awaitKey hrun' hpc x
  | ldBcd x =>
    cases (exec_ldBcd_of_admits hi).symm.trans h
    exact (hs.storeBytes (bs := bcdDigits (s.reg x)) hi.1 hi.2).runOn hrun' rfl rfl rfl hrun (hnext _ rfl)
  | storeRegs x =>
    cases (exec_storeRegs_of_admits hi).symm.trans h
    exact (hs.storeBytes hi.1 (by simpa using hi.2)).runOn hrun' rfl rfl rfl hrun (hnext _ rfl)
  | loadRegs x =>
    cases (exec_loadRegs_of_admits hi).symm.trans h
    exact hs.runOn hrun' rfl rfl rfl hrun (hnext _ rfl)
  | drw x y n =>
    cases (exec_drw_of_admits hi).symm.trans h
    exact hs.runOn hrun' rfl rfl rfl hrun (hnext _ rfl)
  | _ =>
    cases h
    exact hs.runOn hrun' rfl rfl rfl hrun (hnext _ rfl)

theorem Inv.exec {i : Instr} {s t : State} (hs : Inv s) (hrun : s.run = .running) (hpc : s.pc.toNat ≤ 0xFFE)
    (h : exec i s = .next t) : Inv t := by
  by_cases hi : Admits s i
  · exact hs.exec_of_admits hrun hpc hi h
  · obtain ⟨c, a, hraise, -, hlaw⟩ := raisesOwnFault_of_not_admits hi
    cases hraise.symm.trans h
    exact hs.raise hlaw

/-! ### Every branch of the step keeps it -/

theorem fetch_error_gt {s : State} {bad : Nat} (h : fetch s = .error bad) : bad > 0xFFF := by
  obtain ⟨hpc, rfl⟩ := (fetch_error_iff s bad).mp h
  split <;> omega

theorem Inv.stepsTo {s t : State} (hs : Inv s) (h : StepsTo s t) : Inv t := by
  cases h with
  | executes hrun hat hexec => exact hs.exec hrun hat.1 hexec
  | @fetchFault bad _ hfetch => exact hs.raise ⟨bad, rfl, .inl (fetch_error_gt hfetch)⟩
  | @decodeFault w _ hw => exact hs.raise ⟨⟨w, rfl, hw⟩, rfl⟩
  | waits => exact hs
  | resolves hrun k =>
    exact hs.runOn (by simp [hrun]) rfl rfl rfl rfl ((advance_pc_le (hs.waitPc hrun)).trans (by decide))
  | staysHalted => exact hs

/-! ### The obligations -/

/-- Settles O56: nothing is listed in memory, nothing is latched, and PC and the stack are within their bounds. -/
theorem theInvariantHoldsAtReset : Obligations.TheInvariantHoldsAtReset where
  memory := reset_mem_wf
  reserved _ _ := rfl
  pcBound := by decide
  waitPc := by decide
  stackBottom := rfl
  stackBound := by decide
  haltedLatched := by decide
  latch _ h := by cases h

/-- Settles O57: the ticks, the branch that the run state selects, and the end of the turn each keep the invariant. -/
theorem everyStepKeepsTheInvariant : Obligations.EveryStepKeepsTheInvariant := by
  intro s t hs h
  obtain ⟨u, hu, rfl⟩ := stepsTo_of_step h
  exact ((hs.tickMany _).stepsTo hu).endTurn

end Sys2Proof.Machine
end

section
/-! PROOFS. The frames of the instructions (00_scope.md R13), the precise faults (60_exceptions.md R220-R227), and which
instructions change nothing (60_exceptions.md R236). -/

namespace Sys2Proof.Machine

/-! ### Every instruction and every step answers -/

theorem exec_next (i : Instr) (s : State) : ∃ t, exec i s = .next t := by
  by_cases hi : Admits s i
  · obtain ⟨t, ht, -⟩ := exec_of_admits hi
    exact ⟨t, ht⟩
  · obtain ⟨c, a, hraise, -⟩ := raisesOwnFault_of_not_admits hi
    exact ⟨_, hraise⟩

theorem stepRunning_next (s : State) : ∃ t, stepRunning s = .next t := by
  cases hfetch : fetch s with
  | error bad => exact ⟨_, stepRunning_of_fetch_error hfetch⟩
  | ok w =>
    cases hw : decodeWord w with
    | none => exact ⟨_, stepRunning_of_decode_none hfetch hw⟩
    | some i => exact stepRunning_of_atPc (atPc_of_fetch hfetch hw) ▸ exec_next i s

theorem stepByRunState_next (s : State) : ∃ t, stepByRunState s = .next t := by
  cases hrun : s.run with
  | running => exact stepByRunState_of_running hrun ▸ stepRunning_next s
  | awaitingKey => exact ⟨_, stepByRunState_of_awaitingKey hrun⟩
  | halted => exact ⟨s, stepByRunState_of_halted hrun⟩

/-- Settles O16: an instruction goes on or raises its fault, which is a next state, and so does each branch of the
step. -/
theorem everyInstructionAndEveryStepAnswersANextState :
    Obligations.EveryInstructionAndEveryStepAnswersANextState := by
  refine ⟨fun i s => ?_, fun s => ?_⟩
  · obtain ⟨t, ht⟩ := exec_next i s
    exact ⟨t, ht, trivial⟩
  · obtain ⟨t, ht⟩ := stepByRunState_next (tickMany s.turn.ticks s)
    exact ⟨t.endTurn, mapNext_eq_next.mpr ⟨t, ht, rfl⟩, trivial⟩

/-! ### The frames, one group of instructions after another -/

/-- Settles O46. -/
theorem controlTransfersChangeOnlyPcAndTheStack : Obligations.ControlTransfersChangeOnlyPcAndTheStack := by
  refine fun s t => ⟨fun hsp h => exec_changesOnly h hsp, fun nnn hsp h => exec_changesOnly h hsp, fun i hi h => ?_⟩
  obtain ⟨nnn, rfl | rfl⟩ | ⟨x, kk, rfl | rfl⟩ | ⟨x, y, rfl | rfl⟩ | ⟨x, rfl | rfl⟩ := hi <;>
    exact exec_changesOnly h trivial

/-- Settles O47. -/
theorem plainRegisterWritesChangeOnlyTheirRegister : Obligations.PlainRegisterWritesChangeOnlyTheirRegister := by
  intro i x s t hi h
  obtain ⟨kk, rfl | rfl | rfl⟩ | ⟨y, rfl | rfl | rfl | rfl⟩ | rfl := hi <;> exact exec_changesOnly h trivial

/-- Settles O48. -/
theorem flagWritingOperationsChangeOnlyTheirRegisterAndVf :
    Obligations.FlagWritingOperationsChangeOnlyTheirRegisterAndVf := by
  intro i x y s t hi h
  obtain rfl | rfl | rfl | rfl | rfl := hi <;> exact exec_changesOnly h trivial

/-- Settles O49. -/
theorem indexTimerAndKeyWaitWritesChangeOnlyTheirs : Obligations.IndexTimerAndKeyWaitWritesChangeOnlyTheirs :=
  fun _ _ => ⟨fun _ h => exec_changesOnly h trivial, fun _ => ⟨fun h => exec_changesOnly h trivial,
    fun h => exec_changesOnly h trivial, fun h => exec_changesOnly h trivial, fun h => exec_changesOnly h trivial,
    fun h => exec_changesOnly h trivial⟩⟩

/-- A frame of PC and `len` bytes leaves every other byte alone. -/
theorem ChangesOnly.byte_outside {a len : Nat} {s t : State} (h : ChangesOnly (.pc :: byteParts a len) s t) (q : Nat)
    (hq : ¬(a ≤ q ∧ q < a + len)) : t.byte q = s.byte q :=
  h.bytes q (by simpa [mem_byteParts] using hq)

/-- Settles O50: the range check passes, and the bytes written are those of the range. -/
theorem storesChangeOnlyTheirBytes : Obligations.StoresChangeOnlyTheirBytes := by
  refine fun x s t hlow => ⟨fun hend h => ?_, fun hend h => ?_⟩
  · have hframe : ChangesOnly (.pc :: byteParts s.i.toNat 3) s t :=
      exec_changesOnly h ⟨hlow, by omega⟩
    exact ⟨hframe, hframe.byte_outside⟩
  · have hframe : ChangesOnly (.pc :: byteParts s.i.toNat (x.val + 1)) s t :=
      exec_changesOnly h ⟨hlow, by omega⟩
    exact ⟨hframe, hframe.byte_outside⟩

/-- Settles O51. -/
theorem loadRegistersChangesOnlyItsRegisters : Obligations.LoadRegistersChangesOnlyItsRegisters :=
  fun _ _ _ hend h => exec_changesOnly h (Nat.succ_le_succ hend)

/-- Settles O52. -/
theorem displayInstructionsChangeOnlyTheDisplayAndVf : Obligations.DisplayInstructionsChangeOnlyTheDisplayAndVf :=
  fun _ _ => ⟨fun h => exec_changesOnly h trivial, fun _ _ _ hread h => exec_changesOnly h hread⟩

/-! ### Precise faults -/

/-- Only the key wait writes RUN. -/
theorem run_mem_writes {i : Instr} {s : State} (h : .run ∈ writes s i) : ∃ x, i = .ldRegKey x := by
  cases i <;> simp [writes, byteParts, regParts] at h ⊢

/-- An instruction whose checks pass does not halt the machine. -/
theorem run_ne_halted_of_admits {i : Instr} {s t : State} (hi : Admits s i) (h : exec i s = .next t)
    (hrun : s.run ≠ .halted) : t.run ≠ .halted := by
  by_cases hw : .run ∈ writes s i
  · obtain ⟨x, rfl⟩ := run_mem_writes hw
    cases h
    simp
  · exact (exec_changesOnly h hi).run hw ▸ hrun

/-- Settles O53: checks that pass do not halt, so the instruction raised the fault of its row, and that writes RUN and
FAULT alone. -/
theorem faultsArePrecise : Obligations.FaultsArePrecise := by
  intro i s t h hrun hhalted
  by_cases hi : Admits s i
  · exact absurd hhalted (run_ne_halted_of_admits hi h hrun)
  · obtain ⟨c, a, hraise, hrow, hlaw⟩ := raisesOwnFault_of_not_admits hi
    cases hraise.symm.trans h
    exact ⟨changesOnly_raise _ _ _ s, _, rfl, rfl, rfl, hlaw, hrow⟩

/-! ### The instructions that change nothing -/

theorem word_add_two_ne (a : Word) : a + 2 ≠ a := by
  intro h
  have := congrArg BitVec.toNat h
  simp only [BitVec.toNat_add] at this
  have := a.isLt
  have h2 : (2 : Word).toNat = 2 := rfl
  omega

theorem skipIf_ne (c : Bool) (s : State) : s.skipIf c ≠ s := by
  intro h
  have := congrArg (fun t => t.pc.toNat) h
  simp only [skipIf_pc_toNat] at this
  have := s.pc.isLt
  split at * <;> omega

/-- Whatever else an instruction does, going on to the next one moves PC. -/
theorem advance_ne {u s : State} (hpc : u.pc = s.pc) : u.advance ≠ s := fun h =>
  word_add_two_ne s.pc (hpc ▸ congrArg State.pc h)

theorem setPc_eq_self_iff (a : Word) (s : State) : s.setPc a = s ↔ s.pc.toNat = a.toNat := by
  constructor
  · intro h
    exact congrArg (fun t => t.pc.toNat) h.symm
  · intro h
    rw [← BitVec.eq_of_toNat_eq h]
    rfl

/-- The address fault halts a machine that runs, and a guarded effect that goes on moves PC. -/
theorem guardRange_ne {i : Instr} {a len : Nat} {kind : AccessKind} {f : State → State} {s : State}
    (hrun : s.run = .running) (hf : f s ≠ s) : guardRange i a len kind f s ≠ s := by
  obtain ⟨-, h⟩ | ⟨bad, -, h⟩ := guardRange_cases i a len kind f s
  · exact h ▸ hf
  · exact fun e => by simpa [hrun] using congrArg State.run (h.symm.trans e)

/-- No instruction but a jump changes nothing: it raises its fault, moves SP, enters the wait, skips, or goes on to the
next word. -/
theorem exec_ne_self_of_not_jump {i : Instr} {s : State} (hrun : s.run = .running) (hjp : ∀ nnn, i ≠ .jp nnn)
    (hjpV0 : ∀ nnn, i ≠ .jpV0 nnn) : exec i s ≠ .next s := by
  intro h
  cases i with
  | jp nnn => exact hjp nnn rfl
  | jpV0 nnn => exact hjpV0 nnn rfl
  | ret =>
    by_cases hsp : s.sp = 0
    · have := (exec_ret_of_sp_eq_zero hsp).symm.trans h
      simpa [hrun] using congrArg State.run (Host.Outcome.next.inj this)
    · have := (exec_ret_of_sp_ne_zero hsp).symm.trans h
      simpa using congrArg State.sp (Host.Outcome.next.inj this)
  | call nnn =>
    by_cases hsp : s.sp = 15
    · have := (exec_call_of_sp_eq_top hsp).symm.trans h
      simpa [hrun] using congrArg State.run (Host.Outcome.next.inj this)
    · have := (exec_call_of_sp_ne_top hsp).symm.trans h
      simpa using congrArg State.sp (Host.Outcome.next.inj this)
  | ldRegKey x => simpa [hrun] using congrArg State.run (Host.Outcome.next.inj h)
  | seImm | sneImm | seReg | sneReg | skp | sknp => exact skipIf_ne _ s (Host.Outcome.next.inj h)
  | drw | ldBcd | storeRegs | loadRegs =>
    refine guardRange_ne hrun ?_ (Host.Outcome.next.inj h)
    exact advance_ne rfl
  | _ =>
    refine advance_ne ?_ (Host.Outcome.next.inj h)
    rfl

/-- Settles O59: a jump writes PC alone, so it changes nothing exactly when it goes to PC. -/
theorem theInstructionsThatChangeNothingAreTheSelfJumps :
    Obligations.TheInstructionsThatChangeNothingAreTheSelfJumps := by
  intro i s hrun
  have hjp (nnn : Addr12) : exec (.jp nnn) s = .next s ↔ s.pc.toNat = nnn.toNat := by
    rw [exec_jp, Host.Outcome.next.injEq, setPc_eq_self_iff, addressOperand_toNat]
  have hjpV0 (nnn : Addr12) : exec (.jpV0 nnn) s = .next s ↔ s.pc.toNat = nnn.toNat + (s.reg 0).toNat := by
    rw [exec_jpV0, Host.Outcome.next.injEq, setPc_eq_self_iff, indexedTarget_toNat]
  constructor
  · intro h
    by_contra hnot
    rw [not_or, not_exists, not_exists] at hnot
    refine exec_ne_self_of_not_jump hrun ?_ ?_ h
    · rintro nnn rfl
      exact hnot.1 nnn ⟨rfl, (hjp nnn).mp h⟩
    · rintro nnn rfl
      exact hnot.2 nnn ⟨rfl, (hjpV0 nnn).mp h⟩
  · rintro (⟨nnn, rfl, hself⟩ | ⟨nnn, rfl, hself⟩)
    · exact (hjp nnn).mpr hself
    · exact (hjpV0 nnn).mpr hself

end Sys2Proof.Machine
end

section
/-! PROOFS. The operations of the environment: reset, load and tick (60_exceptions.md R216, R217;
70_reset_and_hazards.md R240, R243). -/

namespace Sys2Proof.Machine

theorem perform_reset (s : State) : perform .reset s = .next (reinitialise s) := rfl

theorem perform_tick (s : State) : perform .tick s = .next (tick s) := rfl

theorem perform_load_of_fits {image : List Byte} (h : image.length ≤ 3584) (s : State) :
    perform (.load image) s = .next (s.storeBytes 0x200 image) :=
  if_pos (decide_eq_true h)

theorem perform_load_of_too_long {image : List Byte} (h : 3584 < image.length) (s : State) :
    perform (.load image) s = .refused .imageTooLong :=
  if_neg (by simpa [imageFits] using h)

/-- Settles O5: memory with nothing listed reads as the reset bytes, and every other piece is State.reset's own. -/
theorem initialisationSetsEveryPieceOfState : Obligations.InitialisationSetsEveryPieceOfState := by
  intro s
  rw [perform_reset, completesWith_next]
  have hreg (r : Reg) : (reinitialise s).reg r = 0 := Vector.getElem_replicate r.isLt
  have hstack (j : Fin 16) : (reinitialise s).stack[j.val] = 0 := Vector.getElem_replicate j.isLt
  have hdisp (row col : Nat) : Display.pixel (reinitialise s).disp row col = false := pixel_clear row col
  exact ⟨fun _ => rfl, hreg, rfl, rfl, hstack, rfl, rfl, rfl, hdisp, rfl, rfl, rfl, rfl, rfl⟩

/-- Settles O6: the load is one store at 0x200, or the refusal. -/
theorem loadCopiesAnImageThatFitsAndRejectsALongerOne :
    Obligations.LoadCopiesAnImageThatFitsAndRejectsALongerOne := by
  refine fun image s => ⟨fun hfits => ?_, fun hlong => perform_load_of_too_long hlong s⟩
  rw [perform_load_of_fits hfits, completesWith_next]
  exact ⟨storeBytes_byte_inside 0x200 image s, changesOnly_storeBytes 0x200 image s⟩

theorem changesOnly_tick (s : State) : ChangesOnly [.dt, .st] s (tick s) := by
  constructor
  case dt => simp
  case st => simp
  all_goals intros; rfl

/-- Settles O7. -/
theorem aTickCountsBothTimersDownAndChangesNothingElse :
    Obligations.ATickCountsBothTimersDownAndChangesNothingElse := by
  intro s
  rw [perform_tick, completesWith_next]
  exact ⟨tickTimer_toNat s.dt, tickTimer_toNat s.st, changesOnly_tick s⟩

theorem tickMany_succ (n : Nat) (s : State) : tickMany (n + 1) s = tick (tickMany n s) := by
  simp [tickMany, tick, countDown_succ]

/-- Settles O8, by induction on the number of ticks. -/
theorem ticksBeforeAStepAreTicksInARow : Obligations.TicksBeforeAStepAreTicksInARow := by
  intro n s
  induction n with
  | zero => exact tickMany_zero s
  | succ n ih => rw [tickMany_succ, ih, Function.iterate_succ_apply']

end Sys2Proof.Machine
end

section
/-! PROOFS. The step in each run state, one step and any number of them (30_encoding.md R75; 44_keys_timers.md R196,
R197; 60_exceptions.md R211, R222, R236). -/

namespace Sys2Proof.Machine

/-! ### Running -/

/-- The instruction at PC runs on the state after the ticks, which do not move it. -/
theorem step_of_atPc {s : State} {i : Instr} (hrun : s.run = .running) (hat : AtPc s i) :
    step s = mapNext State.endTurn (exec i (tickMany s.turn.ticks s)) := by
  rw [step_of_running hrun, stepRunning_of_atPc (s := tickMany s.turn.ticks s) hat]

/-- Settles O9: an offered turn has no ticks, and is the turn the step takes. -/
theorem aStepRunsTheDecodedInstruction : Obligations.AStepRunsTheDecodedInstruction := by
  refine fun s i hrun hat => ⟨step_of_atPc hrun hat, fun input => ⟨?_, rfl⟩⟩
  have h := step_of_atPc (s := s.offer { ticks := 0, input := input }) hrun hat
  rw [offer_turn, tickMany_zero] at h
  exact h

/-- Settles O11: the ticks do not move PC, so the fetch faults at the address that R55 names. -/
theorem aFetchPastMemoryTakesTheAddressFault : Obligations.AFetchPastMemoryTakesTheAddressFault := by
  intro s hrun hpc
  have hfetch := (fetch_error_iff (tickMany s.turn.ticks s) _).mpr ⟨hpc, rfl⟩
  rw [step_of_running hrun, stepRunning_of_fetch_error hfetch, mapNext_next, completesWith_next]
  exact ⟨rfl, rfl, stepChangesOnly_raise _ _ _ s⟩

/-! ### AwaitingKey -/

theorem step_of_awaitingKey_none {s : State} (hrun : s.run = .awaitingKey) (hkey : s.input.keyPress = none) :
    step s = .next (tickMany s.turn.ticks s).endTurn := by
  rw [step, step_eq, stepByRunState_of_awaitingKey (s := tickMany s.turn.ticks s) hrun,
    stepAwaitingKey_of_none (s := tickMany s.turn.ticks s) hkey, mapNext_next]

theorem step_of_awaitingKey_some {s : State} {k : Key} (hrun : s.run = .awaitingKey)
    (hkey : s.input.keyPress = some k) : step s = .next ((tickMany s.turn.ticks s).resolveWait k).endTurn := by
  rw [step, step_eq, stepByRunState_of_awaitingKey (s := tickMany s.turn.ticks s) hrun,
    stepAwaitingKey_of_some (s := tickMany s.turn.ticks s) hkey, mapNext_next]

theorem changesOnly_resolveWait (k : Key) (s : State) :
    ChangesOnly [.reg s.kwTarget, .pc, .run] s (s.resolveWait k) :=
  (((changesOnly_setReg s.kwTarget (keyByte k) s).append (changesOnly_setRun .running _)).advance).mono (by simp)

/-- Settles O12: without an event the step is the ticks alone; with one it is the end of the wait (R197). -/
theorem aWaitingStepOnlyTakesAKeyPress : Obligations.AWaitingStepOnlyTakesAKeyPress := by
  refine fun s hrun => ⟨fun hkey => ?_, fun k hkey => ?_⟩
  · rw [step_of_awaitingKey_none hrun hkey, completesWith_next]
    exact ⟨_, changesOnly_refl [] _, rfl⟩
  · rw [step_of_awaitingKey_some hrun hkey, completesWith_next]
    have hreg : (((tickMany s.turn.ticks s).resolveWait k).reg s.kwTarget) = keyByte k :=
      setReg_reg_same s.kwTarget (keyByte k) _
    exact ⟨(congrArg BitVec.toNat hreg).trans (keyByte_toNat k), rfl, rfl, _,
      changesOnly_resolveWait k (tickMany s.turn.ticks s), rfl⟩

theorem turn_of_env_cons {s : State} {u : Turn} {us : List Turn} (h : s.env = u :: us) : s.turn = u := by
  simp [State.turn, h]

theorem stepsFrom_of_step {k : Nat} {s t : State} (h : step s = .next t) : stepsFrom (k + 1) s = stepsFrom k t := by
  rw [stepsFrom_succ, h]

/-- `n` ticks taken and `k` turns of the environment used: what is left of `s` when nothing else happens. -/
def State.idle (s : State) (n k : Nat) : State := { tickMany n s with env := s.env.drop k, turns := s.turns + k }

theorem idle_zero (s : State) : s.idle 0 0 = s := by
  simp [State.idle, tickMany_zero]

/-- One turn of ticks alone, then the idling that follows it. -/
theorem idle_endTurn_tickMany (s : State) (m n k : Nat) :
    (tickMany m s).endTurn.idle n k = s.idle (m + n) (k + 1) := by
  simp [State.idle, tickMany, State.endTurn, countDown_add, Nat.add_assoc, Nat.add_comm 1 k]

/-- A wait without an event idles, by induction on the quiet turns. -/
theorem stepsFrom_quiet {quiet rest : List Turn} {s : State} (hrun : s.run = .awaitingKey)
    (henv : s.env = quiet ++ rest) (hquiet : ∀ u ∈ quiet, u.input.keyPress = none) :
    stepsFrom quiet.length s = .next (s.idle (quiet.map Turn.ticks).sum quiet.length) := by
  induction quiet generalizing s with
  | nil => exact congrArg Host.Outcome.next (idle_zero s).symm
  | cons u quiet ih =>
    have hturn : s.turn = u := turn_of_env_cons henv
    have hkey : s.input.keyPress = none := by
      rw [State.input, hturn]
      exact hquiet u (by simp)
    rw [List.length_cons, stepsFrom_of_step (step_of_awaitingKey_none hrun hkey), hturn]
    rw [ih (s := (tickMany u.ticks s).endTurn) hrun (by simp [henv]) fun v hv => hquiet v (by simp [hv]),
      idle_endTurn_tickMany, List.map_cons, List.sum_cons]

/-- Settles O13: what is left of the environment's turns after the quiet ones is the rest. -/
theorem theWaitLastsUntilAKeyPress : Obligations.TheWaitLastsUntilAKeyPress := by
  intro quiet rest s hrun henv hquiet
  rw [stepsFrom_quiet hrun henv hquiet, State.idle, henv, List.drop_left]

/-! ### Halted -/

theorem step_of_halted {s : State} (hrun : s.run = .halted) : step s = .next (tickMany s.turn.ticks s).endTurn := by
  rw [step, step_eq, stepByRunState_of_halted (s := tickMany s.turn.ticks s) hrun, mapNext_next]

/-- Settles O14. -/
theorem aHaltedStepChangesNothingAndReportsTheFault : Obligations.AHaltedStepChangesNothingAndReportsTheFault := by
  intro s hrun
  rw [step_of_halted hrun, completesWith_next]
  exact ⟨if_pos hrun, _, changesOnly_refl [] _, rfl⟩

/-- The operations one by one: reset is excluded, a load stores bytes, a step is ticks alone, a tick is a tick. -/
theorem perform_of_halted {op : Op} {s t : State} (hrun : s.run = .halted) (hop : op ≠ .reset)
    (h : perform op s = .next t) : t.run = .halted ∧ t.fault = s.fault := by
  cases op with
  | reset => exact absurd rfl hop
  | load image =>
    obtain ⟨-, h⟩ | ⟨-, h⟩ := ite_eq_iff.mp h
    · cases h
      exact ⟨hrun, rfl⟩
    · cases h
  | step input =>
    cases (step_of_halted (s := s.offer { ticks := 0, input := input }) hrun).symm.trans h
    exact ⟨hrun, rfl⟩
  | tick =>
    cases h
    exact ⟨hrun, rfl⟩

theorem performAll_cons_eq_next {op : Op} {ops : List Op} {s t : State} (h : performAll (op :: ops) s = .next t) :
    ∃ u, perform op s = .next u ∧ performAll ops u = .next t := by
  rw [performAll] at h
  cases hop : perform op s with
  | next u => exact ⟨u, rfl, by simpa [hop] using h⟩
  | fault r => simp [hop] at h
  | refused r => simp [hop] at h

/-- Settles O15, by induction on the operations. -/
theorem onlyResetLeavesHalted : Obligations.OnlyResetLeavesHalted := by
  intro ops s t hrun hreset h
  induction ops generalizing s with
  | nil =>
    cases h
    exact ⟨hrun, rfl⟩
  | cons op ops ih =>
    obtain ⟨u, hu, hrest⟩ := performAll_cons_eq_next h
    rw [List.mem_cons, not_or] at hreset
    obtain ⟨hurun, hufault⟩ := perform_of_halted hrun (Ne.symm hreset.1) hu
    obtain ⟨htrun, htfault⟩ := ih u hurun hreset.2 hrest
    exact ⟨htrun, htfault.trans hufault⟩

/-! ### The self-jump -/

/-- A jump to itself is one turn of ticks alone. -/
theorem step_of_self_jump {nnn : Addr12} {s : State} (hrun : s.run = .running) (hself : s.pc.toNat = nnn.toNat)
    (hat : AtPc s (.jp nnn)) : step s = .next (tickMany s.turn.ticks s).endTurn := by
  have hsame : (tickMany s.turn.ticks s).setPc (addressOperand nnn) = tickMany s.turn.ticks s :=
    (setPc_eq_self_iff _ _).mpr (hself.trans (addressOperand_toNat nnn).symm)
  rw [step_of_atPc hrun hat, exec_jp, hsame, mapNext_next]

/-- Any number of them idles, by induction on the steps. -/
theorem stepsFrom_self_jump {nnn : Addr12} {s : State} (hrun : s.run = .running) (hself : s.pc.toNat = nnn.toNat)
    (hat : AtPc s (.jp nnn)) (k : Nat) : ∃ n, stepsFrom k s = .next (s.idle n k) := by
  induction k generalizing s with
  | zero => exact ⟨0, congrArg Host.Outcome.next (idle_zero s).symm⟩
  | succ k ih =>
    obtain ⟨n, hn⟩ := ih (s := (tickMany s.turn.ticks s).endTurn) hrun hself hat
    refine ⟨s.turn.ticks + n, ?_⟩
    rw [stepsFrom_of_step (step_of_self_jump hrun hself hat), hn, idle_endTurn_tickMany]

/-- Settles O55: idling leaves RUN as it is. -/
theorem aSelfJumpRunsForEver : Obligations.ASelfJumpRunsForEver := by
  intro nnn s hrun hself hat k
  refine ⟨fun j _ => ?_, ?_⟩
  · obtain ⟨n, hn⟩ := stepsFrom_self_jump hrun hself hat j
    have hidle : (s.idle n j).run ≠ .halted := by simp [State.idle, hrun]
    exact ⟨_, hn, hidle⟩
  · obtain ⟨n, hn⟩ := stepsFrom_self_jump hrun hself hat k
    exact ⟨_, hn, n, rfl⟩

/-! ### Which instruction changes which part -/

/-- A part that a step may change, when it is not RUN, FAULT, PC or a register, is written by the instruction at PC. -/
def StepMayWrite (s : State) (p : Part) : Prop :=
  p ∈ [.run, .fault, .pc] ∨ (∃ r, p = .reg r) ∨
    (s.run = .running ∧ ∃ i, AtPc s i ∧ Admits s i ∧ p ∈ writes s i)

/-- Every branch of the step has a frame of such parts. -/
theorem stepsTo_frame {s t : State} (h : StepsTo s t) : ∃ W, ChangesOnly W s t ∧ ∀ p ∈ W, StepMayWrite s p := by
  have hraise (c : FaultCause) (w : Option Word) (a : Option Nat) :
      ∃ W, ChangesOnly W s (s.raise c w a) ∧ ∀ p ∈ W, StepMayWrite s p :=
    ⟨_, changesOnly_raise c w a s, fun p hp => .inl (by simp at hp ⊢; tauto)⟩
  cases h with
  | @executes i t hrun hat hexec =>
    by_cases hi : Admits s i
    · exact ⟨_, exec_changesOnly hexec hi, fun p hp => .inr (.inr ⟨hrun, i, hat, hi, hp⟩)⟩
    · obtain ⟨c, a, hfault, -⟩ := raisesOwnFault_of_not_admits hi
      cases hfault.symm.trans hexec
      exact hraise c _ a
  | fetchFault => exact hraise _ _ _
  | decodeFault => exact hraise _ _ _
  | waits => exact ⟨[], changesOnly_refl _ s, by simp⟩
  | resolves _ k =>
    refine ⟨_, changesOnly_resolveWait k s, fun p hp => ?_⟩
    simp only [List.mem_cons, List.not_mem_nil, or_false] at hp
    obtain rfl | rfl | rfl := hp
    · exact .inr (.inl ⟨_, rfl⟩)
    · exact .inl (by simp)
    · exact .inl (by simp)
  | staysHalted => exact ⟨[], changesOnly_refl _ s, by simp⟩

/-- Which instructions write a byte, and that the byte is above the reserved region (20_memory.md R51, R54). -/
theorem byte_mem_writes {i : Instr} {s : State} {a : Nat} (hi : Admits s i) (h : .byte a ∈ writes s i) :
    0x1FF < a ∧ ∃ x, i = .ldBcd x ∨ i = .storeRegs x := by
  cases i with
  | ldBcd x =>
    obtain ⟨hlow, -⟩ := mem_byteParts.mp (by simpa [writes] using h)
    exact ⟨by have := hi.1; omega, x, .inl rfl⟩
  | storeRegs x =>
    obtain ⟨hlow, -⟩ := mem_byteParts.mp (by simpa [writes] using h)
    exact ⟨by have := hi.1; omega, x, .inr rfl⟩
  | _ => simp [writes, regParts] at h

theorem display_mem_writes {i : Instr} {s : State} (h : .display ∈ writes s i) :
    i = .cls ∨ ∃ x y n, i = .drw x y n := by
  cases i <;> simp [writes, byteParts, regParts] at h ⊢

theorem index_mem_writes {i : Instr} {s : State} (h : .index ∈ writes s i) :
    (∃ nnn, i = .ldI nnn) ∨ ∃ x, i = .addI x ∨ i = .ldFont x := by
  cases i <;> simp [writes, byteParts, regParts] at h ⊢

theorem sp_mem_writes {i : Instr} {s : State} (h : .sp ∈ writes s i) : i = .ret ∨ ∃ nnn, i = .call nnn := by
  cases i <;> simp [writes, byteParts, regParts] at h ⊢

theorem stackEntry_mem_writes {i : Instr} {s : State} {j : Fin 16} (h : .stackEntry j ∈ writes s i) :
    ∃ nnn, i = .call nnn := by
  cases i <;> simp [writes, byteParts, regParts] at h ⊢

/-- A part other than RUN, FAULT, PC and the registers is written only by the instruction at PC. -/
theorem StepMayWrite.byInstr {s : State} {p : Part} (h : StepMayWrite s p) (hp : p ∉ [.run, .fault, .pc])
    (hr : ∀ r, p ≠ .reg r) : s.run = .running ∧ ∃ i, AtPc s i ∧ Admits s i ∧ p ∈ writes s i := by
  obtain h | ⟨r, rfl⟩ | h := h
  · exact absurd h hp
  · exact absurd rfl (hr r)
  · exact h

/-- Settles O54: what the step changed is in its frame, and only these instructions have it in theirs. -/
theorem onlyTheirInstructionsChangeMemoryDisplayIndexAndStack :
    Obligations.OnlyTheirInstructionsChangeMemoryDisplayIndexAndStack := by
  intro s t h
  obtain ⟨u, hu, rfl⟩ := stepsTo_of_step h
  obtain ⟨W, hframe, hW⟩ := stepsTo_frame hu
  have hbyInstr (p : Part) (hp : p ∈ W) (hp' : p ∉ [.run, .fault, .pc]) (hr : ∀ r, p ≠ .reg r) :=
    (hW p hp).byInstr hp' hr
  refine ⟨fun a ha => ?_, ?_, fun hd => ?_, fun hi => ?_, fun hsp => ?_, fun hst => ?_⟩
  · by_contra hne
    obtain ⟨-, i, -, hi, hp⟩ := hbyInstr (.byte a) (not_imp_comm.mp (hframe.bytes a) hne) (by simp) (by simp)
    have := (byte_mem_writes hi hp).1
    omega
  · rintro ⟨a, hne⟩
    obtain ⟨hrun, i, hat, hi, hp⟩ := hbyInstr (.byte a) (not_imp_comm.mp (hframe.bytes a) hne) (by simp) (by simp)
    obtain ⟨-, x, rfl | rfl⟩ := byte_mem_writes hi hp
    · exact ⟨hrun, x, .inl hat⟩
    · exact ⟨hrun, x, .inr hat⟩
  · obtain ⟨hrun, i, hat, -, hp⟩ := hbyInstr .display (not_imp_comm.mp hframe.display hd) (by simp) (by simp)
    obtain rfl | ⟨x, y, n, rfl⟩ := display_mem_writes hp
    · exact ⟨hrun, .inl hat⟩
    · exact ⟨hrun, .inr ⟨x, y, n, hat⟩⟩
  · obtain ⟨hrun, i, hat, -, hp⟩ := hbyInstr .index (not_imp_comm.mp hframe.index hi) (by simp) (by simp)
    obtain ⟨nnn, rfl⟩ | ⟨x, rfl | rfl⟩ := index_mem_writes hp
    · exact ⟨hrun, .inl ⟨nnn, hat⟩⟩
    · exact ⟨hrun, .inr ⟨x, .inl hat⟩⟩
    · exact ⟨hrun, .inr ⟨x, .inr hat⟩⟩
  · obtain ⟨hrun, i, hat, -, hp⟩ := hbyInstr .sp (not_imp_comm.mp hframe.sp hsp) (by simp) (by simp)
    obtain rfl | ⟨nnn, rfl⟩ := sp_mem_writes hp
    · exact ⟨hrun, .inl hat⟩
    · exact ⟨hrun, .inr ⟨nnn, hat⟩⟩
  · have hentry : ∃ j, .stackEntry j ∈ W := by
      by_contra hnone
      exact hst (hframe.stack_eq (not_exists.mp hnone))
    obtain ⟨j, hj⟩ := hentry
    obtain ⟨hrun, i, hat, -, hp⟩ := hbyInstr (.stackEntry j) hj (by simp) (by simp)
    obtain ⟨nnn, rfl⟩ := stackEntry_mem_writes hp
    exact ⟨hrun, nnn, hat⟩

/-! ### The fault registers -/

/-- A lawful record has no address, or a forbidden one (10_state.md R37). -/
theorem FaultRecord.Lawful.addr_forbidden {r : FaultRecord} (h : r.Lawful) {a : Nat} (ha : r.addr = some a) :
    a > 0xFFF ∨ a ≤ 0x1FF := by
  obtain ⟨c, pc, w, addr⟩ := r
  cases c with
  | address =>
    obtain ⟨b, hb, hforbidden⟩ := h
    cases hb.symm.trans ha
    exact hforbidden
  | decode | stackOverflow | stackUnderflow => cases h.2.symm.trans ha

/-- Settles O58: the registers are read off the latch, whose record is lawful wherever the invariant holds. -/
theorem faultRegistersShowTheLatchAndHoldLegalValues :
    Obligations.FaultRegistersShowTheLatchAndHoldLegalValues := by
  refine ⟨fun c w a s => ?_, fun s hnone => ?_, fun s hs => ?_⟩
  · cases c <;> rfl
  · rw [output_faultRegisters, hnone, faultRegisters_none]
  · rw [output_faultRegisters, hs.haltedLatched]
    cases hf : s.fault with
    | none => simp
    | some r =>
      obtain ⟨hpc, hlaw⟩ := hs.latch r hf
      exact ⟨causeCode_le r.cause, by simp, fun _ => hpc, fun a ha => hlaw.addr_forbidden ha⟩

end Sys2Proof.Machine
end

section
/-! PROOFS. What the ALU, the skips on registers and keys, and the key wait give (40_control_flow.md R106, R107;
41_alu.md R124-R132; 44_keys_timers.md R190, R191, R193). -/

namespace Sys2Proof.Machine

/-! ### The skips on two registers -/

theorem encodedBy_seReg : EncodedBy 0xF00F 0x5000 (∃ x y, · = .seReg x y) := by
  refine encodedBy_op_n (op := 0x5) (n := 0x0) (fun w hop hn => ?_) ?_
  · exact ⟨.seReg (fieldX w) (fieldY w), by simp [decodeWord, hop, hn], _, _, rfl⟩
  · rintro i ⟨x, y, rfl⟩
    exact ⟨fieldOp_formXYN 0x5 x y 0x0, fieldN_formXYN 0x5 x y 0x0⟩

theorem encodedBy_sneReg : EncodedBy 0xF00F 0x9000 (∃ x y, · = .sneReg x y) := by
  refine encodedBy_op_n (op := 0x9) (n := 0x0) (fun w hop hn => ?_) ?_
  · exact ⟨.sneReg (fieldX w) (fieldY w), by simp [decodeWord, hop, hn], _, _, rfl⟩
  · rintro i ⟨x, y, rfl⟩
    exact ⟨fieldOp_formXYN 0x9 x y 0x0, fieldN_formXYN 0x9 x y 0x0⟩

/-- The other minor nibbles are illegal (30_encoding.md R79). -/
theorem decodeWord_row5_row9_of_n_ne_zero (x y : Reg) (n : BitVec 4) (hn : n ≠ 0) :
    decodeWord (formXYN 0x5 x y n) = none ∧ decodeWord (formXYN 0x9 x y n) = none := by
  constructor <;> simpa [decodeWord] using hn

theorem exec_seReg (x y : Reg) (s : State) : exec (.seReg x y) s = .next (s.skipIf (s.reg x == s.reg y)) := rfl

theorem exec_sneReg (x y : Reg) (s : State) : exec (.sneReg x y) s = .next (s.skipIf (s.reg x != s.reg y)) := rfl

/-- Settles O22: both skips are the skip class on a comparison (30_encoding.md R78). -/
theorem registerSkipsCompareTheTwoRegisters : Obligations.RegisterSkipsCompareTheTwoRegisters := by
  refine ⟨encodedBy_seReg, encodedBy_sneReg, fun x y s => ⟨?_, ?_, decodeWord_row5_row9_of_n_ne_zero x y⟩⟩
  · rw [exec_seReg, completesWith_next]
    exact ⟨skipIf_eq_pc_toNat _ _ s, skipIf_reg _ s VF, raisesNothing_skipIf _ s⟩
  · rw [exec_sneReg, completesWith_next]
    exact ⟨skipIf_ne_pc_toNat _ _ s, skipIf_reg _ s VF, raisesNothing_skipIf _ s⟩

/-! ### The bitwise operations and the random byte -/

theorem exec_or (x y : Reg) (s : State) : exec (.or x y) s = .next (s.setReg x (s.reg x ||| s.reg y)).advance := rfl

theorem exec_and (x y : Reg) (s : State) : exec (.and x y) s = .next (s.setReg x (s.reg x &&& s.reg y)).advance := rfl

theorem exec_xor (x y : Reg) (s : State) : exec (.xor x y) s = .next (s.setReg x (s.reg x ^^^ s.reg y)).advance := rfl

theorem exec_rnd (x : Reg) (kk : Byte) (s : State) :
    exec (.rnd x kk) s = .next (s.setReg x (s.input.randByte &&& kk)).advance := rfl

/-- Settles O25: each writes one register, and its bits are those of the operation. -/
theorem bitwiseOperationsActBitByBit : Obligations.BitwiseOperationsActBitByBit := by
  intro x y s
  have hvf (b : Byte) (hx : x ≠ VF) : (s.setReg x b).advance.reg VF = s.reg VF := setReg_reg_other hx.symm b s
  refine ⟨?_, ?_, ?_⟩
  · rw [exec_or, completesWith_next]
    exact ⟨rfl, hvf _, fun b => by simp⟩
  · rw [exec_and, completesWith_next]
    exact ⟨rfl, hvf _, fun b => by simp⟩
  · rw [exec_xor, completesWith_next]
    exact ⟨rfl, hvf _, fun b => by simp⟩

/-- A turn whose random byte is `r`. -/
def turnWithRandByte (r : Byte) : Turn :=
  { ticks := 0, input := { keyDown := Vector.replicate 16 false, keyPress := none, randByte := r } }

/-- Settles O28: the byte is masked, and the environment may offer a turn with any byte. -/
theorem randomByteIsMaskedAndFree : Obligations.RandomByteIsMaskedAndFree := by
  refine fun x kk s => ⟨?_, fun r => ⟨turnWithRandByte r, ?_⟩⟩
  · rw [exec_rnd, completesWith_next]
    exact ⟨rfl, fun b => by simp⟩
  · rw [exec_rnd, completesWith_next, advance_reg, setReg_reg_same]
    exact BitVec.and_allOnes

/-! ### The flag-writing operations -/

theorem exec_add (x y : Reg) (s : State) : exec (.add x y) s =
    .next (s.writeFlagAndResult .vfFirst x (s.reg x + s.reg y) (carryOut (s.reg x) (s.reg y))).advance := rfl

theorem exec_sub (x y : Reg) (s : State) : exec (.sub x y) s =
    .next (s.writeFlagAndResult .vfFirst x (s.reg x - s.reg y) (noBorrow (s.reg x) (s.reg y))).advance := rfl

theorem exec_subn (x y : Reg) (s : State) : exec (.subn x y) s =
    .next (s.writeFlagAndResult .vfFirst x (s.reg y - s.reg x) (noBorrow (s.reg y) (s.reg x))).advance := rfl

theorem exec_shr (x y : Reg) (s : State) : exec (.shr x y) s =
    .next (s.writeFlagAndResult .vfFirst x (s.reg x >>> 1) (shiftedOutRight (s.reg x))).advance := rfl

theorem exec_shl (x y : Reg) (s : State) : exec (.shl x y) s =
    .next (s.writeFlagAndResult .vfFirst x (s.reg x <<< 1) (shiftedOutLeft (s.reg x))).advance := rfl

theorem writeFlagAndResult_reg_result (x : Reg) (result : Byte) (flag : Bool) (s : State) :
    (s.writeFlagAndResult .vfFirst x result flag).reg x = result := by simp

theorem writeFlagAndResult_reg_flag {x : Reg} (hx : x ≠ VF) (result : Byte) (flag : Bool) (s : State) :
    (s.writeFlagAndResult .vfFirst x result flag).reg VF = flagByte flag := by simp [hx.symm]

/-- What a flag-writing operation completes with, from the values of its result and its flag (41_alu.md R120). -/
theorem completesWith_writeFlagAndResult {x : Reg} {result : Byte} {flag : Bool} {s : State} {r f : Nat}
    (hr : result.toNat = r) (hf : (flagByte flag).toNat = f) :
    CompletesWith (.next (s.writeFlagAndResult .vfFirst x result flag).advance) fun t =>
      (t.reg x).toNat = r ∧ t.pc = s.pc + 2 ∧ (x ≠ VF → (t.reg VF).toNat = f) := by
  rw [completesWith_next, advance_reg, advance_reg, writeFlagAndResult_reg_result]
  exact ⟨hr, rfl, fun hx => (writeFlagAndResult_reg_flag hx result flag s).symm ▸ hf⟩

theorem flagByte_decide_toNat (p : Prop) [Decidable p] : (flagByte (decide p)).toNat = if p then 1 else 0 := by
  simp

theorem byte_sub_toNat (a b : Byte) : (a - b).toNat = (a.toNat + 256 - b.toNat) % 256 := by
  have := b.isLt
  rw [BitVec.toNat_sub]
  congr 1
  omega

/-- Settles O26. -/
theorem addAndSubtractGiveResultAndFlag : Obligations.AddAndSubtractGiveResultAndFlag := by
  refine fun x y s => ⟨?_, ?_, ?_⟩
  · rw [exec_add]
    exact completesWith_writeFlagAndResult (BitVec.toNat_add _ _) (flagByte_decide_toNat _)
  · rw [exec_sub]
    exact completesWith_writeFlagAndResult (byte_sub_toNat _ _) (flagByte_decide_toNat _)
  · rw [exec_subn]
    exact completesWith_writeFlagAndResult (byte_sub_toNat _ _) (flagByte_decide_toNat _)

theorem byte_shiftRight_one_toNat (a : Byte) : (a >>> 1).toNat = a.toNat / 2 := by
  simp [Nat.shiftRight_eq_div_pow]

theorem byte_shiftLeft_one_toNat (a : Byte) : (a <<< 1).toNat = 2 * a.toNat % 256 := by
  simp [Nat.shiftLeft_eq, Nat.mul_comm]

theorem flagByte_shiftedOutRight_toNat (a : Byte) : (flagByte (shiftedOutRight a)).toNat = a.toNat % 2 := by
  rw [shiftedOutRight, BitVec.getLsbD, Nat.testBit_zero, flagByte_decide_toNat]
  split <;> omega

theorem flagByte_shiftedOutLeft_toNat (a : Byte) : (flagByte (shiftedOutLeft a)).toNat = a.toNat / 128 := by
  have := a.isLt
  rw [shiftedOutLeft, BitVec.getLsbD, Nat.testBit_eq_decide_div_mod_eq, flagByte_decide_toNat]
  split <;> omega

/-- Settles O27. -/
theorem shiftsGiveResultAndTheBitShiftedOut : Obligations.ShiftsGiveResultAndTheBitShiftedOut := by
  refine fun x y s => ⟨?_, ?_⟩
  · rw [exec_shr]
    exact completesWith_writeFlagAndResult (byte_shiftRight_one_toNat _) (flagByte_shiftedOutRight_toNat _)
  · rw [exec_shl]
    exact completesWith_writeFlagAndResult (byte_shiftLeft_one_toNat _) (flagByte_shiftedOutLeft_toNat _)

/-! ### The keys -/

theorem exec_skp (x : Reg) (s : State) : exec (.skp x) s = .next (s.skipIf (s.keyHeld (s.reg x))) := rfl

theorem exec_sknp (x : Reg) (s : State) : exec (.sknp x) s = .next (s.skipIf (!s.keyHeld (s.reg x))) := rfl

theorem exec_ldRegKey (x : Reg) (s : State) :
    exec (.ldRegKey x) s = .next ((s.setKwTarget x).setRun .awaitingKey) := rfl

theorem keyHeld_of_eq {s : State} {v : Byte} {k : Key} (h : v.toNat = k.val) :
    s.keyHeld v = s.input.keyDown[k.val] := by
  simp [State.keyHeld, h]

/-- A value above 0xF names no key (D17). -/
theorem keyHeld_of_gt {s : State} {v : Byte} (h : 0xF < v.toNat) : s.keyHeld v = false :=
  dif_neg (by omega)

/-- Settles O41: both skips are the skip class on the state of the key. -/
theorem keySkipsFollowTheKeyState : Obligations.KeySkipsFollowTheKeyState := by
  refine fun x s => ⟨fun k hk => ⟨?_, ?_⟩, fun hgt => ⟨?_, ?_⟩⟩
  · rw [exec_skp, completesWith_next, keyHeld_of_eq hk, skipIf_pc_toNat]
  · rw [exec_sknp, completesWith_next, keyHeld_of_eq hk, skipIf_pc_toNat]
    cases s.input.keyDown[k.val] <;> rfl
  · rw [exec_skp, completesWith_next, keyHeld_of_gt hgt]
    rfl
  · rw [exec_sknp, completesWith_next, keyHeld_of_gt hgt]
    rfl

/-- Settles O45. -/
theorem keyWaitIsEnteredAndTakesNoEvent : Obligations.KeyWaitIsEnteredAndTakesNoEvent := by
  intro x s
  rw [exec_ldRegKey, completesWith_next]
  exact ⟨rfl, rfl, rfl, fun _ => rfl⟩

/-! ### The return after the call -/

/-- A push moves SP off 0 as long as the stack is not full. -/
theorem sp_succ_ne_zero {sp : Fin 16} (h : sp ≠ 15) : sp + 1 ≠ 0 := by
  intro e
  have := sp_succ_val h
  simp [e] at this

/-- Settles O20: the RET reads the entry that the CALL pushed and takes SP back by the one that the CALL added. -/
theorem returnComesBackAfterTheMatchingCall : Obligations.ReturnComesBackAfterTheMatchingCall := by
  intro nnn s hsp
  rw [exec_call_of_sp_ne_top hsp, completesWith_next]
  intro u husp hustack
  have husp' : u.sp = s.sp + 1 := husp
  rw [exec_ret_of_sp_ne_zero (husp' ▸ sp_succ_ne_zero hsp), completesWith_next]
  constructor
  · show u.stackTop = s.pc + 2
    simp [State.stackTop, hustack, husp']
  · show u.sp - 1 = s.sp
    rw [husp', add_sub_cancel_right]

end Sys2Proof.Machine
end

section
/-! PROOFS. The index register and the memory transfers (42_index_memory.md R151-R156), their faults (20_memory.md R56)
and the fetch after a store (20_memory.md section 4). -/

namespace Sys2Proof.Machine

/-! ### The index register -/

theorem exec_addI (x : Reg) (s : State) :
    exec (.addI x) s = .next (s.setI (indexSum 0x10000 s.i (s.reg x))).advance := rfl

theorem exec_ldFont (x : Reg) (s : State) :
    exec (.ldFont x) s = .next (s.setI (glyphAddress .mask (s.reg x))).advance := rfl

theorem indexSum_toNat (a : Word) (v : Byte) : (indexSum 0x10000 a v).toNat = (a.toNat + v.toNat) % 65536 := by
  rw [indexSum, BitVec.toNat_ofNat, Nat.mod_mod]

/-- Settles O30. -/
theorem indexArithmeticWrapsAndPointsAtGlyphs : Obligations.IndexArithmeticWrapsAndPointsAtGlyphs := by
  refine fun x s => ⟨?_, ?_⟩
  · rw [exec_addI, completesWith_next]
    exact ⟨indexSum_toNat s.i (s.reg x), rfl, rfl⟩
  · rw [exec_ldFont, completesWith_next]
    exact ⟨glyphAddress_mask_toNat (s.reg x), rfl, rfl⟩

/-! ### The stores and the load -/

@[simp] theorem advance_byte (s : State) (a : Nat) : s.advance.byte a = s.byte a := rfl

/-- The digits as numbers: each fits a byte (R153). -/
theorem bcdDigits_toNat (v : Byte) :
    (bcdDigits v).map BitVec.toNat = [v.toNat / 100, v.toNat / 10 % 10, v.toNat % 10] := by
  have := v.isLt
  simp only [bcdDigits, List.map_cons, List.map_nil, BitVec.toNat_ofNat, List.cons.injEq, and_true]
  omega

/-- Settles O31: the three digits are stored one after another at I. -/
theorem bcdStoresTheThreeDigits : Obligations.BcdStoresTheThreeDigits := by
  intro x s hlow hend
  rw [exec_ldBcd_of_admits ⟨hlow, by omega⟩, completesWith_next]
  have hbyte := storeBytes_byte_inside s.i.toNat (bcdDigits (s.reg x)) s
  have hdigits := bcdDigits_toNat (s.reg x)
  simp only [bcdDigits, List.map_cons, List.map_nil, List.cons.injEq, and_true] at hdigits
  obtain ⟨h0, h1, h2⟩ := hdigits
  exact ⟨(congrArg BitVec.toNat (hbyte 0 (by simp))).trans h0, (congrArg BitVec.toNat (hbyte 1 (by simp))).trans h1,
    (congrArg BitVec.toNat (hbyte 2 (by simp))).trans h2, rfl, rfl⟩

/-- The byte at I + k after Fx55 is V[k] (R154). -/
theorem storeRegs_byte (s : State) {x k : Reg} (hk : k ≤ x) :
    (s.storeBytes s.i.toNat (s.regsUpTo x)).byte (s.i.toNat + k.val) = s.reg k := by
  have hlen : k.val < (s.regsUpTo x).length := by
    rw [regsUpTo_length]
    exact Nat.lt_succ_of_le hk
  rw [storeBytes_byte_inside _ _ _ k.val hlen, regsUpTo_getElem s x k.val k.isLt]

/-- Settles O32. -/
theorem storeRegistersCopiesThemToMemory : Obligations.StoreRegistersCopiesThemToMemory := by
  intro x s hlow hend
  rw [exec_storeRegs_of_admits ⟨hlow, by omega⟩, completesWith_next]
  exact ⟨fun k hk => storeRegs_byte s hk, rfl, rfl⟩

/-- Settles O33: every register is written, those above x with what they hold. -/
theorem loadRegistersCopiesThemFromMemory : Obligations.LoadRegistersCopiesThemFromMemory := by
  intro x s hend
  rw [exec_loadRegs_of_admits (by omega), completesWith_next]
  refine ⟨fun k hk => ?_, fun k hk => ?_, rfl, rfl⟩
  · rw [advance_reg, setRegs_reg, if_pos hk]
  · rw [advance_reg, setRegs_reg, if_neg (not_le.mpr hk)]

/-- Settles O34: the load reads at I + k what the store wrote there. -/
theorem loadRestoresTheStoredRegisters : Obligations.LoadRestoresTheStoredRegisters := by
  intro x s hlow hend
  rw [exec_storeRegs_of_admits ⟨hlow, by omega⟩, completesWith_next]
  intro u hi hbytes
  obtain ⟨w, hw, hload, -⟩ := loadRegistersCopiesThemFromMemory x u (hi.symm ▸ hend)
  refine ⟨w, hw, fun k hk => ?_⟩
  rw [hload k hk, hi, hbytes k hk, advance_byte, storeRegs_byte s hk]

/-! ### A range with a forbidden address -/

theorem badAddress_iff_forbidden (kind : AccessKind) (a : Nat) :
    badAddress Param.protectReserved kind a = true ↔ AccessForbidden kind a := by
  cases kind <;> simp [badAddress, Param.protectReserved, AccessForbidden]

/-- The check answers the lowest forbidden address of the range (20_memory.md R56). -/
theorem checkRange_of_lowest {a len k : Nat} {kind : AccessKind} (hk : k < len)
    (hbad : AccessForbidden kind (a + k)) (hlow : ∀ j < k, ¬AccessForbidden kind (a + j)) :
    checkRange a len kind = some (a + k) := by
  have hsome : checkRange a len kind ≠ none := fun hnone => by
    have := (checkRange_none_iff a len kind).mp hnone k hk
    rw [(badAddress_iff_forbidden kind _).mpr hbad] at this
    cases this
  obtain ⟨_, hbad'⟩ := Option.ne_none_iff_exists'.mp hsome
  obtain ⟨k', -, rfl, hk'bad, hk'low⟩ := checkRange_some hbad'
  rw [hbad']
  obtain hlt | rfl | hgt := Nat.lt_trichotomy k' k
  · exact absurd ((badAddress_iff_forbidden kind _).mp hk'bad) (hlow k' hlt)
  · rfl
  · have := hk'low k hgt
    rw [(badAddress_iff_forbidden kind _).mpr hbad] at this
    cases this

/-- Settles O35: each of the four instructions checks its range first, and the check answers the lowest bad address. -/
theorem aBadRangeFaultsAtItsLowestAddressAndMovesNothing :
    Obligations.ABadRangeFaultsAtItsLowestAddressAndMovesNothing := by
  intro i len k kind s hi hk hbad hlow
  have hrange := checkRange_of_lowest hk hbad hlow
  have hexec : exec i s = .next (s.raise .address (some (encode i)) (some (s.i.toNat + k))) := by
    obtain ⟨x, rfl, rfl, rfl⟩ | ⟨x, rfl, rfl, rfl⟩ | ⟨x, rfl, rfl, rfl⟩ | ⟨x, y, n, rfl, rfl, rfl⟩ := hi <;>
      exact congrArg Host.Outcome.next (guardRange_bad hrange)
  rw [hexec, completesWith_next]
  exact ⟨rfl, rfl, changesOnly_raise _ _ _ s⟩

/-! ### The fetch after a store -/

/-- Fx33 and Fx55 are a store of their bytes at I, then the next instruction. -/
theorem exec_store {i : Instr} {bs : List Byte} {s : State}
    (hi : (∃ x, i = .ldBcd x ∧ bs = bcdDigits (s.reg x)) ∨ ∃ x, i = .storeRegs x ∧ bs = s.regsUpTo x)
    (hlow : 0x200 ≤ s.i.toNat) (hend : s.i.toNat + bs.length ≤ 0x1000) :
    exec i s = .next (s.storeBytes s.i.toNat bs).advance := by
  obtain ⟨x, rfl, rfl⟩ | ⟨x, rfl, rfl⟩ := hi
  · exact exec_ldBcd_of_admits ⟨hlow, hend⟩
  · exact exec_storeRegs_of_admits ⟨hlow, by simpa using hend⟩

/-- Settles O36: the fetch reads memory as the store left it, byte by byte. -/
theorem aStoreIsSeenByTheVeryNextFetch : Obligations.AStoreIsSeenByTheVeryNextFetch := by
  intro i bs s hi hlow hend hpc
  rw [exec_store hi hlow hend, completesWith_next]
  have hinside (a k : Nat) (h : k < bs.length) (ha : a = s.i.toNat + k) :
      (s.storeBytes s.i.toNat bs).byte a = bs[k] := ha ▸ storeBytes_byte_inside _ bs s k h
  exact ⟨_, _, (fetch_ok_iff _ _).mpr ⟨hpc, rfl⟩, hinside _, hinside _, storeBytes_byte_outside,
    storeBytes_byte_outside⟩

end Sys2Proof.Machine
end

section
/-! PROOFS. The inputs of a step (60_exceptions.md R213-R215): an instruction that reads no input does the same whatever
turn the environment offers, and the three that read one see only theirs. -/

namespace Sys2Proof.Machine

/-- A guarded effect is the same under any offered turn when the effect is: the range check looks at the addresses
only. -/
theorem guardRange_offer {f : State → State} (i : Instr) (a len : Nat) (kind : AccessKind) (s : State) (u : Turn)
    (hf : f (s.offer u) = (f s).offer u) :
    guardRange i a len kind f (s.offer u) = (guardRange i a len kind f s).offer u := by
  obtain ⟨hfree, h⟩ | ⟨bad, hbad, h⟩ := guardRange_cases i a len kind f s
  · rw [h, guardRange_ok hfree, hf]
  · rw [h, guardRange_bad hbad]
    rfl

/-- Every instruction but Ex9E, ExA1 and Cxkk. The choice between an effect and a fault looks at SP or at the range, and
the offered turn stays under both. -/
theorem exec_offer {i : Instr} (hkeys : ∀ x, i ≠ .skp x ∧ i ≠ .sknp x) (hrnd : ∀ x kk, i ≠ .rnd x kk) (s : State)
    (u : Turn) : exec i (s.offer u) = mapNext (State.offer u) (exec i s) := by
  cases i with
  | skp x => exact absurd rfl (hkeys x).1
  | sknp x => exact absurd rfl (hkeys x).2
  | rnd x kk => exact absurd rfl (hrnd x kk)
  | ret =>
    exact congrArg Host.Outcome.next (apply_ite (State.offer u) (s.sp = 0)
      (s.raise .stackUnderflow (some (encode .ret)) none) (s.pop.setPc s.stackTop)).symm
  | call nnn =>
    exact congrArg Host.Outcome.next (apply_ite (State.offer u) (s.sp = 15)
      (s.raise .stackOverflow (some (encode (.call nnn))) none)
      ((s.push (s.pc + 2)).setPc (addressOperand nnn))).symm
  | drw | ldBcd | storeRegs | loadRegs => exact congrArg Host.Outcome.next (guardRange_offer _ s.i.toNat _ _ s u rfl)
  | _ => rfl

/-- The end of the turn discards the offered turn, so that it does not matter which it was. -/
theorem mapNext_endTurn_offer (o : Host.Outcome State Fault Refusal) (u u' : Turn) :
    mapNext State.endTurn (mapNext (State.offer u) o) = mapNext State.endTurn (mapNext (State.offer u') o) := by
  cases o <;> rfl

theorem keyHeld_offer_congr {u u' : Turn} (h : u.input.keyDown = u'.input.keyDown) (s : State) (v : Byte) :
    (s.offer u).keyHeld v = (s.offer u').keyHeld v := by
  simp only [State.keyHeld, offer_input, h]

/-- Settles O44: the key tests see the key states alone, Cxkk the random byte alone, and the others no input. -/
theorem inputsAreReadOnlyByTheirInstructions : Obligations.InputsAreReadOnlyByTheirInstructions := by
  intro i n a b s hkeys hrand
  by_cases hreads : (∃ x, i = .skp x ∨ i = .sknp x) ∨ ∃ x kk, i = .rnd x kk
  · obtain ⟨x, rfl | rfl⟩ | ⟨x, kk, rfl⟩ := hreads
    · have hkeys : a.keyDown = b.keyDown := hkeys.resolve_left fun h => (h x).1 rfl
      rw [exec_skp, exec_skp, keyHeld_offer_congr (u := ⟨n, a⟩) (u' := ⟨n, b⟩) hkeys]
      rfl
    · have hkeys : a.keyDown = b.keyDown := hkeys.resolve_left fun h => (h x).2 rfl
      rw [exec_sknp, exec_sknp, keyHeld_offer_congr (u := ⟨n, a⟩) (u' := ⟨n, b⟩) hkeys]
      rfl
    · have hrand : a.randByte = b.randByte := hrand.resolve_left fun h => h x kk rfl
      rw [exec_rnd, exec_rnd, offer_input, offer_input, hrand]
      rfl
  · simp only [not_or, not_exists] at hreads
    obtain ⟨hnokeys, hnornd⟩ := hreads
    rw [exec_offer hnokeys hnornd, exec_offer hnokeys hnornd, mapNext_endTurn_offer]

end Sys2Proof.Machine
end

section
/-! PROOFS. The draw (43_display.md R171, R173, R175): its loop is one parallel XOR of the covered pixels, so that two
draws cancel, and the second collides where the first found a pixel off. -/

namespace Sys2Proof.Machine

/-! ### The blit against the set of covered pixels -/

/-- What the loop's columns and rows cover is what the sprite covers. -/
theorem spriteCovers_iff_bitsCover (s : State) (x y : Reg) {n row col : Nat} (hrow : row < 32) (hcol : col < 64) :
    spriteCovers s x y n row col ↔
      ∃ j, ∃ h : j < (Memory.readBytes s.mem s.i.toNat n).length, ((s.reg y).toNat + j) % 32 = row % 32 ∧
        bitsCover (Memory.readBytes s.mem s.i.toNat n)[j] (s.reg x).toNat 8 col := by
  simp only [readBytes_getElem, readBytes_length, bitsCover, Nat.mod_eq_of_lt hrow, Nat.mod_eq_of_lt hcol]
  constructor
  · rintro ⟨r, hr, c, hc, hbit, hy, hx⟩
    exact ⟨r, hr, hy, c, hc, hbit, hx⟩
  · rintro ⟨r, hr, hy, c, hc, hbit, hx⟩
    exact ⟨r, hr, c, hc, hbit, hy, hx⟩

theorem blit_pixel_of_covers {s : State} {x y : Reg} {n row col : Nat} (hn : n ≤ 32) (hrow : row < 32)
    (hcol : col < 64) (h : spriteCovers s x y n row col) :
    Display.pixel (s.blit x y n).disp row col = !Display.pixel s.disp row col := by
  rw [spriteCovers_iff_bitsCover s x y hrow hcol] at h
  rw [State.blit, blitSprite_pixel _ _ _ _ (by simpa using hn)]
  simp only [h, decide_true, Bool.xor_true]

theorem blit_pixel_of_not_covers {s : State} {x y : Reg} {n row col : Nat} (hn : n ≤ 32) (hrow : row < 32)
    (hcol : col < 64) (h : ¬spriteCovers s x y n row col) :
    Display.pixel (s.blit x y n).disp row col = Display.pixel s.disp row col := by
  rw [spriteCovers_iff_bitsCover s x y hrow hcol] at h
  rw [State.blit, blitSprite_pixel _ _ _ _ (by simpa using hn)]
  simp only [h, decide_false, Bool.xor_false]

/-- The draw collides exactly where the sprite covers a pixel that is on. -/
theorem blit_hit_iff (s : State) (x y : Reg) {n : Nat} (hn : n ≤ 32) :
    (s.blit x y n).hit = true ↔
      ∃ row < 32, ∃ col < 64, spriteCovers s x y n row col ∧ Display.pixel s.disp row col = true := by
  rw [State.blit, blitSprite_hit _ _ _ _ (by simpa using hn)]
  simp only [Bool.false_eq_true, false_or, readBytes_getElem, readBytes_length]
  constructor
  · rintro ⟨r, hr, c, hc, hbit, hon⟩
    exact ⟨_, Nat.mod_lt _ (by decide), _, Nat.mod_lt _ (by decide), ⟨r, hr, c, hc, hbit, rfl, rfl⟩,
      (pixel_mod _ _ _).trans hon⟩
  · rintro ⟨_, -, _, -, ⟨r, hr, c, hc, hbit, rfl, rfl⟩, hon⟩
    exact ⟨r, hr, c, hc, hbit, (pixel_mod _ _ _).symm.trans hon⟩

/-! ### The flag -/

theorem flagByte_eq_one_iff (b : Bool) : flagByte b = 1 ↔ b = true := by cases b <;> decide

theorem rows_le (n : Fin 16) : n.val ≤ 32 := by omega

/-- The state after a draw: its display and its flag. -/
theorem exec_drw_display_and_flag {x y : Reg} {n : Fin 16} {s : State}
    (h : n.val = 0 ∨ s.i.toNat + n.val ≤ 0x1000) :
    ∃ t, exec (.drw x y n) s = .next t ∧ t.disp = (s.blit x y n.val).disp ∧
      t.reg VF = flagByte (s.blit x y n.val).hit ∧ t.pc = s.pc + 2 :=
  ⟨_, exec_drw_of_admits h, rfl, setReg_reg_same VF _ _, rfl⟩

/-! ### The obligations -/

/-- Settles O38: the pixels and the flag of the blit, by whether the sprite covers the pixel. -/
theorem theDrawIsOneParallelXor : Obligations.TheDrawIsOneParallelXor := by
  intro x y n s hread
  obtain ⟨t, ht, hdisp, hflag, hpc⟩ := exec_drw_display_and_flag (x := x) (y := y) hread
  refine ⟨t, ht, fun row hrow col hcol => ⟨fun hcov => ?_, fun hcov => ?_⟩, fun hon => ?_, fun hoff => ?_, hpc⟩
  · rw [hdisp, blit_pixel_of_covers (rows_le n) hrow hcol hcov]
  · rw [hdisp, blit_pixel_of_not_covers (rows_le n) hrow hcol hcov]
  · rw [hflag, (blit_hit_iff s x y (rows_le n)).mpr hon]
    rfl
  · have hhit : (s.blit x y n.val).hit = false := by
      rw [← Bool.not_eq_true, blit_hit_iff s x y (rows_le n)]
      rintro ⟨row, hrow, col, hcol, hcov, hon⟩
      rw [hoff row hrow col hcol hcov] at hon
      cases hon
    rw [hflag, hhit]
    rfl

/-- The sprite depends on memory, I and the two coordinates alone. -/
theorem spriteCovers_congr {s u : State} {x y : Reg} (hi : u.i = s.i) (hx : u.reg x = s.reg x)
    (hy : u.reg y = s.reg y) (hbyte : ∀ a, u.byte a = s.byte a) (n row col : Nat) :
    spriteCovers u x y n row col ↔ spriteCovers s x y n row col := by
  simp only [spriteCovers, hi, hx, hy, hbyte]

/-- Settles O39: a covered pixel is turned over twice, and the second draw finds it on where the first found it off. -/
theorem drawingTwiceRestoresTheDisplay : Obligations.DrawingTwiceRestoresTheDisplay := by
  intro x y n s hread
  obtain ⟨t, ht, hdisp, -, -⟩ := exec_drw_display_and_flag (x := x) (y := y) hread
  refine ⟨t, ht, fun u hudisp hi hx hy hbyte => ?_⟩
  obtain ⟨w, hw, hwdisp, hflag, -⟩ := exec_drw_display_and_flag (x := x) (y := y) (s := u) (hi.symm ▸ hread)
  have hcovers := spriteCovers_congr hi hx hy hbyte n.val
  rw [hdisp] at hudisp
  refine ⟨w, hw, display_ext fun row hrow col hcol => ?_, ?_⟩
  · by_cases hcov : spriteCovers s x y n.val row col
    · rw [hwdisp, blit_pixel_of_covers (rows_le n) hrow hcol ((hcovers row col).mpr hcov), hudisp,
        blit_pixel_of_covers (rows_le n) hrow hcol hcov, Bool.not_not]
    · rw [hwdisp, blit_pixel_of_not_covers (rows_le n) hrow hcol (mt (hcovers row col).mp hcov), hudisp,
        blit_pixel_of_not_covers (rows_le n) hrow hcol hcov]
  · rw [hflag, flagByte_eq_one_iff, blit_hit_iff u x y (rows_le n)]
    have hpixel (row : Nat) (hrow : row < 32) (col : Nat) (hcol : col < 64) :
        spriteCovers u x y n.val row col ∧ Display.pixel u.disp row col = true ↔
          spriteCovers s x y n.val row col ∧ Display.pixel s.disp row col = false := by
      rw [hcovers]
      refine and_congr_right fun hcov => ?_
      rw [hudisp, blit_pixel_of_covers (rows_le n) hrow hcol hcov, Bool.not_eq_true']
    constructor
    · rintro ⟨row, hrow, col, hcol, h⟩
      exact ⟨row, hrow, col, hcol, (hpixel row hrow col hcol).mp h⟩
    · rintro ⟨row, hrow, col, hcol, h⟩
      exact ⟨row, hrow, col, hcol, (hpixel row hrow col hcol).mpr h⟩

/-- Reset with every pixel on. I is 0, where the font has the byte 0xF0 (10_state.md R33). -/
def allOn : State := { State.reset with disp := Vector.replicate 32 (Vector.replicate 64 true) }

theorem pixel_allOn (row col : Nat) : Display.pixel allOn.disp row col = true := by
  simp [Display.pixel, allOn]

/-- Refutes O40: with every pixel on, the first draw turns the sprite's pixels off, and the second finds them off and
turns them on again without a collision. -/
theorem not_theSecondDrawCollidesWhateverTheDisplayHeld :
    ¬Obligations.TheSecondDrawCollidesWhateverTheDisplayHeld := by
  intro h
  have hread : (1 : Fin 16).val = 0 ∨ allOn.i.toNat + (1 : Fin 16).val ≤ 0x1000 := by decide
  have hbit : ∃ r < (1 : Fin 16).val, ∃ c < 8, (allOn.byte (allOn.i.toNat + r)).getLsbD c = true :=
    ⟨0, by decide, 7, by decide, by decide⟩
  obtain ⟨t, ht, hsecond⟩ := drawingTwiceRestoresTheDisplay 0 0 1 allOn hread
  have hframe : ChangesOnly [.pc, .display, .reg VF] allOn t := exec_changesOnly ht hread
  have hreg : t.reg 0 = allOn.reg 0 := hframe.regs 0 (by decide)
  obtain ⟨w, hw, -, hflag⟩ := hsecond t rfl (hframe.index (by decide)) hreg hreg fun a => hframe.bytes a (by simp)
  have hcollides : w.reg VF = 1 := h 0 0 1 allOn t w (by decide) (by decide) (by decide) hbit ht hw
  obtain ⟨row, -, col, -, -, hoff⟩ := hflag.mp hcollides
  rw [pixel_allOn] at hoff
  cases hoff

end Sys2Proof.Machine
end
